-- ==== Sys2Proof/Word.lean ====
section
/-! DEFINITION. The word types of CHIP8-CORE: the byte of a register or a memory cell, the 16-bit word of an instruction,
of `pc`, of `index` and of a stack slot, and the numbers that select a register, a key or a stack slot
(00_scope.md R7, R9, R10; all values are unsigned). -/

namespace Sys2Proof

/-- 8 bits: a general register, a memory cell, a timer (R7 `REG_W`, `TIMER_W`). -/
abbrev Byte := BitVec 8

/-- 16 bits: an instruction word, `pc`, `index`, a return address (R7 `ADDR_W`, R80). -/
abbrev Word := BitVec 16

/-- The number of a general register, 0x0 to 0xF (R21, R87). -/
abbrev Reg := Fin 16

/-- The number of a key, 0x0 to 0xF (R33). -/
abbrev Key := Fin 16

/-- The display: a flat buffer of 64 by 32 one-bit pixels, the pixel of column x and row y at position x + 64*y (R34). -/
abbrev Display := BitVec 2048

end Sys2Proof
end

