-- ==== Sys2Proof/Config.lean ====
section
/-! DEFINITION. What is fixed for this machine: the parameters of 00_scope.md R7, those of R8 that are values, and the one
free value the spec leaves open, the random byte of `CXNN` (42_load_alu.md R166). -/

namespace Sys2Proof.Config

/-- `MEM_SIZE`: bytes of memory, addresses 0..4095 (R7, R30). -/
def memSize : Nat := 4096

/-- `STACK_DEPTH`: return-address slots (R7, R26). -/
def stackDepth : Nat := 16

/-- `ENTRY`: the program entry address, the reset value of `pc` (R7, R41). -/
def entry : Word := 0x200

/-- `ADDR_MASK`: the 12-bit mask of opcode-derived addresses (R7, R24). -/
def addrMask : Word := 0x0FFF

/-- `DISP_W`: pixels in a row (R7, R34). -/
def dispWidth : Nat := 64

/-- `DISP_H`: rows of the display (R7, R34). -/
def dispHeight : Nat := 32

/-- `KEY_INDEX_MASK`: the bits of a register that select a key (R8, R137).
DESIGN CHOICE of the spec (D17), log 11; unsafe. -/
def keyIndexMask : Byte := 0x0F

/-- `GLYPH_BYTES`: bytes of one font glyph (R7). -/
def glyphBytes : Nat := 5

/-- `FONT_BASE`: where Initialize installs the font (R8, R32).
DESIGN CHOICE of the spec (D5, conflict C2), log 5; unsafe. -/
def fontBase : Nat := 0x000

/-- `FONT_DATA`: the 80 bytes of the sixteen glyphs, glyph d at 5*d .. 5*d+4 (R31).
PRESUMED: the conventional font, which the spec takes from general knowledge (D6, G1), log 4; unsafe. -/
def fontData : List Byte :=
  [0xF0, 0x90, 0x90, 0x90, 0xF0,  0x20, 0x60, 0x20, 0x20, 0x70,
   0xF0, 0x10, 0xF0, 0x80, 0xF0,  0xF0, 0x10, 0xF0, 0x10, 0xF0] ++
  [0x90, 0x90, 0xF0, 0x10, 0x10,  0xF0, 0x80, 0xF0, 0x10, 0xF0,
   0xF0, 0x80, 0xF0, 0x90, 0xF0,  0xF0, 0x10, 0x20, 0x40, 0x40] ++
  [0xF0, 0x90, 0xF0, 0x90, 0xF0,  0xF0, 0x90, 0xF0, 0x10, 0xF0,
   0xF0, 0x90, 0xF0, 0x90, 0x90,  0xE0, 0x90, 0xE0, 0x90, 0xE0] ++
  [0xF0, 0x80, 0x80, 0x80, 0xF0,  0xE0, 0x90, 0x90, 0x90, 0xE0,
   0xF0, 0x80, 0xF0, 0x80, 0xF0,  0xF0, 0x80, 0xF0, 0x80, 0x80]

/-- The most bytes a ROM may have: 4096 - 0x200 = 3584 (R258, R294). -/
def romLimit : Nat := memSize - entry.toNat

/-- The free random byte of the n-th `CXNN` of a run: no body, so nothing can be proved of its value
(R166: "A model treats it as a free draw"). DESIGN CHOICE of the form, log 2; safe. -/
opaque rndByte : Nat → Byte

end Sys2Proof.Config
end

