-- ==== Sys2Proof/Syntax.lean ====
section
/-! DEFINITION. The 34 instructions of CHIP8-CORE, one constructor per row of spec/opcode_table.json, in the table's order
(30_encoding.md R84, R100). The operands are the fields X, Y, N, NN, NNN of R81, each a value of exactly its field's range. -/

namespace Sys2Proof

/-- An instruction. Each constructor's docstring gives its pattern and the rule that gives its effect. -/
inductive Instr where
  /-- `00E0` CLS, R201 -/
  | cls
  /-- `00EE` RET, R117 -/
  | ret
  /-- `1NNN` JP, R113 -/
  | jp (nnn : BitVec 12)
  /-- `2NNN` CALL, R116 -/
  | call (nnn : BitVec 12)
  /-- `3XNN` SE_IMM, R131 -/
  | seImm (x : Reg) (nn : Byte)
  /-- `4XNN` SNE_IMM, R132 -/
  | sneImm (x : Reg) (nn : Byte)
  /-- `5XY0` SE_REG, R133 -/
  | seReg (x y : Reg)
  /-- `6XNN` LD_IMM, R151 -/
  | ldImm (x : Reg) (nn : Byte)
  /-- `7XNN` ADD_IMM, R152 -/
  | addImm (x : Reg) (nn : Byte)
  /-- `8XY0` LD_REG, R153 -/
  | ldReg (x y : Reg)
  /-- `8XY1` OR, R157 -/
  | orReg (x y : Reg)
  /-- `8XY2` AND, R158 -/
  | andReg (x y : Reg)
  /-- `8XY3` XOR, R159 -/
  | xorReg (x y : Reg)
  /-- `8XY4` ADD_REG, R160 -/
  | addReg (x y : Reg)
  /-- `8XY5` SUB, R161 -/
  | sub (x y : Reg)
  /-- `8XY6` SHR, R162; the field Y selects nothing (R91) -/
  | shr (x y : Reg)
  /-- `8XY7` SUBN, R163 -/
  | subn (x y : Reg)
  /-- `8XYE` SHL, R164; the field Y selects nothing (R91) -/
  | shl (x y : Reg)
  /-- `9XY0` SNE_REG, R134 -/
  | sneReg (x y : Reg)
  /-- `ANNN` LD_I, R181 -/
  | ldI (nnn : BitVec 12)
  /-- `BNNN` JP_V0, R114 -/
  | jpV0 (nnn : BitVec 12)
  /-- `CXNN` RND, R165 -/
  | rnd (x : Reg) (nn : Byte)
  /-- `DXYN` DRW, R202 -/
  | drw (x y : Reg) (n : BitVec 4)
  /-- `EX9E` SKP, R135 -/
  | skp (x : Reg)
  /-- `EXA1` SKNP, R136 -/
  | sknp (x : Reg)
  /-- `FX07` LD_VX_DT, R221 -/
  | ldVxDt (x : Reg)
  /-- `FX0A` LD_VX_K, R224 -/
  | ldVxK (x : Reg)
  /-- `FX15` LD_DT_VX, R222 -/
  | ldDtVx (x : Reg)
  /-- `FX18` LD_ST_VX, R223 -/
  | ldStVx (x : Reg)
  /-- `FX1E` ADD_I_VX, R182 -/
  | addIVx (x : Reg)
  /-- `FX29` LD_F_VX, R183 -/
  | ldFVx (x : Reg)
  /-- `FX33` LD_B_VX, R184 -/
  | ldBVx (x : Reg)
  /-- `FX55` LD_MEM_VX, R185; X is a count here, not a register read -/
  | ldMemVx (x : Reg)
  /-- `FX65` LD_VX_MEM, R187; X is a count here, not a register read -/
  | ldVxMem (x : Reg)
  deriving DecidableEq, Repr

/-- The unique spelling of spec/opcode_table.json (R100). PRESUMED by the spec (D22, G2), log 28; safe. -/
def Instr.mnemonic : Instr → String
  | .cls => "CLS"
  | .ret => "RET"
  | .jp _ => "JP"
  | .call _ => "CALL"
  | .seImm _ _ => "SE_IMM"
  | .sneImm _ _ => "SNE_IMM"
  | .seReg _ _ => "SE_REG"
  | .ldImm _ _ => "LD_IMM"
  | .addImm _ _ => "ADD_IMM"
  | .ldReg _ _ => "LD_REG"
  | .orReg _ _ => "OR"
  | .andReg _ _ => "AND"
  | .xorReg _ _ => "XOR"
  | .addReg _ _ => "ADD_REG"
  | .sub _ _ => "SUB"
  | .shr _ _ => "SHR"
  | .subn _ _ => "SUBN"
  | .shl _ _ => "SHL"
  | .sneReg _ _ => "SNE_REG"
  | .ldI _ => "LD_I"
  | .jpV0 _ => "JP_V0"
  | .rnd _ _ => "RND"
  | .drw _ _ _ => "DRW"
  | .skp _ => "SKP"
  | .sknp _ => "SKNP"
  | .ldVxDt _ => "LD_VX_DT"
  | .ldVxK _ => "LD_VX_K"
  | .ldDtVx _ => "LD_DT_VX"
  | .ldStVx _ => "LD_ST_VX"
  | .addIVx _ => "ADD_I_VX"
  | .ldFVx _ => "LD_F_VX"
  | .ldBVx _ => "LD_B_VX"
  | .ldMemVx _ => "LD_MEM_VX"
  | .ldVxMem _ => "LD_VX_MEM"

end Sys2Proof
end

