-- ==== Sys2Proof/WellFormed.lean ====
section
/-! DEFINITION. What can be ill formed. A term of `Instr` cannot: every value of every operand field is valid (30_encoding.md
R87) and the field types hold exactly those values, so there is nothing left to check on one. What is checked is what comes
from outside: a 16-bit word, which is an instruction only if a row of the opcode map R84 selects it (R88), and a ROM, which
must fit (60_exceptions.md R258). The opcode map is data here, written from R84, apart from the decoder, which is written
from the algorithm R83. -/

namespace Sys2Proof

/-- One row of the opcode map: `w & mask = bits` selects it (R84). -/
structure OpcodeRow where
  mnemonic : String
  bits : Word
  mask : Word
  deriving DecidableEq, Repr

/-- The complete opcode map, one row per instruction, in the table's order (R84). -/
def opcodeMap : List OpcodeRow :=
  [⟨"CLS", 0x00E0, 0xFFFF⟩, ⟨"RET", 0x00EE, 0xFFFF⟩, ⟨"JP", 0x1000, 0xF000⟩, ⟨"CALL", 0x2000, 0xF000⟩,
   ⟨"SE_IMM", 0x3000, 0xF000⟩, ⟨"SNE_IMM", 0x4000, 0xF000⟩, ⟨"SE_REG", 0x5000, 0xF00F⟩,
   ⟨"LD_IMM", 0x6000, 0xF000⟩, ⟨"ADD_IMM", 0x7000, 0xF000⟩] ++
  [⟨"LD_REG", 0x8000, 0xF00F⟩, ⟨"OR", 0x8001, 0xF00F⟩, ⟨"AND", 0x8002, 0xF00F⟩, ⟨"XOR", 0x8003, 0xF00F⟩,
   ⟨"ADD_REG", 0x8004, 0xF00F⟩, ⟨"SUB", 0x8005, 0xF00F⟩, ⟨"SHR", 0x8006, 0xF00F⟩, ⟨"SUBN", 0x8007, 0xF00F⟩,
   ⟨"SHL", 0x800E, 0xF00F⟩, ⟨"SNE_REG", 0x9000, 0xF00F⟩] ++
  [⟨"LD_I", 0xA000, 0xF000⟩, ⟨"JP_V0", 0xB000, 0xF000⟩, ⟨"RND", 0xC000, 0xF000⟩, ⟨"DRW", 0xD000, 0xF000⟩,
   ⟨"SKP", 0xE09E, 0xF0FF⟩, ⟨"SKNP", 0xE0A1, 0xF0FF⟩] ++
  [⟨"LD_VX_DT", 0xF007, 0xF0FF⟩, ⟨"LD_VX_K", 0xF00A, 0xF0FF⟩, ⟨"LD_DT_VX", 0xF015, 0xF0FF⟩,
   ⟨"LD_ST_VX", 0xF018, 0xF0FF⟩, ⟨"ADD_I_VX", 0xF01E, 0xF0FF⟩, ⟨"LD_F_VX", 0xF029, 0xF0FF⟩,
   ⟨"LD_B_VX", 0xF033, 0xF0FF⟩, ⟨"LD_MEM_VX", 0xF055, 0xF0FF⟩, ⟨"LD_VX_MEM", 0xF065, 0xF0FF⟩]

/-- The row selects the word. -/
def OpcodeRow.selects (r : OpcodeRow) (w : Word) : Bool := w &&& r.mask == r.bits

/-- No word is selected by both rows: they differ in a bit that both fix (R84: "no word matches two rows"). -/
def OpcodeRow.disjoint (r q : OpcodeRow) : Bool := (r.bits ^^^ q.bits) &&& (r.mask &&& q.mask) != 0

/-- The word is an instruction: some row of the map selects it (R84, R88). -/
def wordWellFormed (w : Word) : Bool := opcodeMap.any (·.selects w)

/-- The ROM fits the memory from the entry address up (R258: refuse if longer than 3584 bytes). -/
def romWellFormed (bytes : List Byte) : Bool := bytes.length ≤ Config.romLimit

end Sys2Proof
end

