-- ==== Sys2Proof/Machine/State.lean ====
section
/-! DEFINITION. The state of CHIP8-CORE: the eleven components of 10_state.md R20, "exactly these eleven components and nothing
else", and the model's own counter of free random bytes; its reset value (R41, R291); and the reasons a step can stop
(60_exceptions.md R240, R241). -/

namespace Sys2Proof.Machine

/-- Memory: the bytes that differ from the reset contents, as (address, byte) pairs. What an address that is not listed reads
as, the read and the write, and the canonical form `Memory.wf`, are in Machine/Ops.lean. -/
abbrev Memory := List Host.Cell

/-- The machine's state (R20). -/
structure State where
  /-- `memory`, 4096 bytes (R30) -/
  mem : Memory
  /-- `reg[0]` .. `reg[15]`, `reg[15]` the flag register (R21, R22) -/
  regs : Vector Byte 16
  /-- `index`, 16 bits, in every reachable state at most 0x0FFF (R25) -/
  index : Word
  /-- `program_counter` (R23, R24) -/
  pc : Word
  /-- `stack`, sixteen 16-bit return addresses (R26) -/
  stack : Vector Word 16
  /-- `stack_pointer`, the next free slot, 0..16 (R27); log 21 -/
  sp : Fin 17
  /-- `delay_timer` (R28) -/
  dt : Byte
  /-- `sound_timer` (R29) -/
  st : Byte
  /-- `keypad`, true while the key is pressed (R33); log 21 -/
  keys : Vector Bool 16
  /-- `display` (R34); log 21 -/
  disp : Display
  /-- `redraw_pending` (R38) -/
  redraw : Bool
  /-- The model's own, no component of R20: how many free random bytes have been drawn (R166); log 2. -/
  draws : Nat
  deriving DecidableEq, Repr

/-- The state after Initialize (R41, R291): the font in memory, which is what unlisted addresses read as, `pc` = 0x200, every
other component zero. `draws` = 0 is a DESIGN CHOICE (log 2), which nothing rests on; the rest is the spec's (log 19). -/
def State.reset : State where
  mem := []
  regs := Vector.replicate 16 0
  index := 0
  pc := Config.entry
  stack := Vector.replicate 16 0
  sp := 0
  dt := 0
  st := 0
  keys := Vector.replicate 16 false
  disp := 0
  redraw := false
  draws := 0

/-- The four errors an operation can return (R240, R241). The state is the one before the operation (R246), so the reason is
all that is reported. Each is safe: the spec itself says that the operation fails here and changes nothing (log 1, log 13).
The payloads are log 25. -/
inductive Fault where
  /-- Raised by DecodeExecute, and so by Step, of a word that is no instruction (R88, R242), with the word. Safe. -/
  | unknownOpcode (w : Word)
  /-- Raised by Fetch (with `pc`) and by DXYN, FX33, FX55, FX65 (with `index`) when the range they access ends above
  address 4095 (R59, R243). Safe. -/
  | memoryBoundsError (addr : Nat)
  /-- Raised by 2NNN when `sp` = 16 (R244), with `sp`. Safe. -/
  | stackOverflow (sp : Nat)
  /-- Raised by 00EE when `sp` = 0 (R245), with `sp`. Safe. -/
  | stackUnderflow (sp : Nat)
  deriving DecidableEq, Repr

/-- Why the model gives no meaning. -/
inductive Refusal where
  /-- Raised by an arm of `exec` whose instruction has no meaning yet; there is none. Safe. -/
  | notModelled (mnemonic : String)
  /-- Raised by the host operation LoadProgram with a ROM of more than 3584 bytes, which writes nothing (R258). Safe. -/
  | romTooLong (length : Nat)
  deriving DecidableEq, Repr

end Sys2Proof.Machine
end

