-- ==== Sys2Proof/Machine/Ops.lean ====
section
/-! DEFINITION. The named operations over the state that the instructions share: memory and its bounds check (20_memory.md),
registers, the program counter and the stack (40_control_flow.md), the display (44_display.md), and how an error leaves an
operation (60_exceptions.md R246). This machine takes no exception and returns from none: R260 gives it no handler address, no
saved pc and no return instruction, so an error is the outcome `fault` and the state is the one before the operation. -/

namespace Sys2Proof.Machine

/-! ## How an operation ends -/

/-- An operation either commits its whole next state or returns its error and commits nothing (R12, R246).
DEDUCED: `fault` stands for the returned `Err`, log 1; safe. -/
def outcomeOf : Except Fault State → Host.Outcome State Fault Refusal
  | .ok t => .next t
  | .error f => .fault f

/-! ## Memory -/

/-- What an address that is not listed reads as: the reset contents, the font at `FONT_BASE` and 0 elsewhere (R41, R51).
DEDUCED: every byte has a value after Initialize, log 23; safe. -/
def Memory.unlisted (a : Nat) : Byte :=
  if Config.fontBase ≤ a then Config.fontData.getD (a - Config.fontBase) 0 else 0

/-- The byte at an address. -/
def Memory.read : Memory → Nat → Byte
  | [], a => Memory.unlisted a
  | (b, v) :: m, a => if b = a then v else Memory.read m a

/-- The memory with one byte written, in canonical form: an entry equal to what the address reads as unlisted is not kept. -/
def Memory.write : Memory → Nat → Byte → Memory
  | [], a, v => if v = Memory.unlisted a then [] else [(a, v)]
  | (b, w) :: m, a, v =>
    if a < b then (if v = Memory.unlisted a then (b, w) :: m else (a, v) :: (b, w) :: m)
    else if a = b then (if v = Memory.unlisted a then m else (a, v) :: m)
    else (b, w) :: Memory.write m a v

/-- Bytes written at ascending addresses from `a` (R56). -/
def Memory.writeBytes : Memory → Nat → List Byte → Memory
  | m, _, [] => m
  | m, a, v :: vs => Memory.writeBytes (m.write a v) (a + 1) vs

/-- Every address of the list is at least `lo`, addresses rise strictly, each lies in the memory, and no entry equals what its
address reads as unlisted. -/
def Memory.wfFrom : Nat → Memory → Bool
  | _, [] => true
  | lo, (a, v) :: m => lo ≤ a && a < Config.memSize && v != Memory.unlisted a && Memory.wfFrom (a + 1) m

/-- The canonical form: equal memories are equal lists. -/
def Memory.wf (m : Memory) : Bool := Memory.wfFrom 0 m

/-- The `n` addresses from `base` up all lie in the memory; no access when `n` = 0 (R59, R202). Addresses do not wrap. -/
def inBounds (base n : Nat) : Bool := n == 0 || base + n ≤ Config.memSize

/-- The whole range is checked before anything is read or written (R53, R54, R59).
DESIGN CHOICE of the spec (D10, D16), log 13; safe. -/
def checkBounds {α : Type} (base n : Nat) (result : α) : Except Fault α :=
  if inBounds base n then .ok result else .error (.memoryBoundsError base)

/-- `memory[a]` (R11). -/
def State.byteAt (s : State) (a : Nat) : Byte := s.mem.read a

/-- `MemRead(addr, 2)`, the big-endian read of Fetch (R53, R55). -/
def State.memReadWord (s : State) (addr : Nat) : Except Fault Word :=
  checkBounds addr 2 (wordOfBytes (s.byteAt addr) (s.byteAt (addr + 1)))

/-- The `n` bytes from `addr` up: `MemRead(addr + i, 1)` for i = 0 .. n-1 under one check (R53, R59). -/
def State.memReadBytes (s : State) (addr n : Nat) : Except Fault (List Byte) :=
  checkBounds addr n ((List.range n).map fun i => s.byteAt (addr + i))

/-- The state with bytes stored from `addr` up, no check. -/
def State.storeBytes (s : State) (addr : Nat) (bytes : List Byte) : State :=
  { s with mem := s.mem.writeBytes addr bytes }

/-- `MemWrite(addr + i, 1, bytes[i])` for every byte under one check (R54, R59); no address is protected (R60).
DESIGN CHOICE of the spec for the font (D7), log 26; unsafe. -/
def State.memWriteBytes (s : State) (addr : Nat) (bytes : List Byte) : Except Fault State :=
  checkBounds addr bytes.length (s.storeBytes addr bytes)

/-- Fetch: the big-endian word at `pc`, odd or even; it changes nothing and does not advance `pc` (R52, R57).
DESIGN CHOICE of the spec for an odd `pc` (D9), log 26; unsafe. -/
def State.fetchWord (s : State) : Except Fault Word := s.memReadWord s.pc.toNat

/-! ## Registers -/

/-- `reg[r]`; no register is hardwired (R21). -/
def State.reg (s : State) (r : Reg) : Byte := s.regs[r.val]

/-- `reg[r] <- v` (R10). -/
def State.setReg (s : State) (r : Reg) (v : Byte) : State := { s with regs := s.regs.set r.val v }

/-- `reg[i] <- bytes[i]` for every byte there is, the registers beyond them unchanged (R187). -/
def State.setRegsFrom (s : State) (bytes : List Byte) : State :=
  { s with regs := Vector.ofFn fun r : Fin 16 => bytes.getD r.val (s.reg r) }

/-- `reg[0] .. reg[x]`, inclusive (R185). -/
def State.regsUpTo (s : State) (x : Reg) : List Byte := s.regs.toList.take (x.val + 1)

/-- `index <- v`. -/
def State.setIndex (s : State) (v : Word) : State := { s with index := v }

/-- `dt <- v`. -/
def State.setDt (s : State) (v : Byte) : State := { s with dt := v }

/-- `st <- v`. -/
def State.setSt (s : State) (v : Byte) : State := { s with st := v }

/-! ## The program counter -/

/-- `pc <- v`. -/
def State.setPc (s : State) (v : Word) : State := { s with pc := v }

/-- `advance(k)`: `pc <- trunc_16(pc + k)`, no 12-bit mask (R111).
DESIGN CHOICE of the spec (D8), log 6; unsafe. -/
def State.advance (s : State) (k : Word) : State := { s with pc := s.pc + k }

/-- The branch router: `if cond then advance(4) else advance(2)` (R130). -/
def State.skipIf (s : State) (cond : Bool) : State := s.advance (if cond then 4 else 2)

/-! ## The stack unit -/

/-- `Push(v)`: the slot at `sp`, then `sp` one up; an error at `sp` = 16 (R115). -/
def State.push (s : State) (v : Word) : Except Fault State :=
  if h : s.sp.val < Config.stackDepth then
    .ok { s with stack := s.stack.set s.sp.val v h, sp := ⟨s.sp.val + 1, Nat.succ_lt_succ h⟩ }
  else .error (.stackOverflow s.sp.val)

/-- `Pop()`: `sp` one down, then the slot there, which keeps its value (R26, R115); an error at `sp` = 0.
DESIGN CHOICE of the spec (D23) for the slot, log 20; safe. -/
def State.pop (s : State) : Except Fault (Word × State) :=
  if h : s.sp.val = 0 then .error (.stackUnderflow s.sp.val)
  else
    have below : s.sp.val - 1 < 16 := by omega
    .ok (s.stack[s.sp.val - 1], { s with sp := ⟨s.sp.val - 1, Nat.lt_succ_of_lt below⟩ })

/-! ## The display and the sprite engine -/

/-- `disp[x, y]`, flat position x + 64*y (R34). -/
def pixelAt (d : Display) (x y : Nat) : Bool := d.getLsbD (x + Config.dispWidth * y)

/-- `disp[x, y] <- disp[x, y] ^ 1`. -/
def togglePixel (d : Display) (x y : Nat) : Display := d ^^^ BitVec.twoPow 2048 (x + Config.dispWidth * y)

/-- One set bit of the sprite at column `px` and row `py`, both unbounded: dropped beyond an edge, else XORed in, a collision
if the pixel was 1 (R202, R203). The pair is the display and the collision so far.
DESIGN CHOICE of the spec (D15, clip), log 7; unsafe. -/
def blitPixel (b : Display × Bool) (px py : Nat) : Display × Bool :=
  if px < Config.dispWidth ∧ py < Config.dispHeight then (togglePixel b.1 px py, b.2 || pixelAt b.1 px py) else b

/-- One row byte: bit 7 - col is the pixel of column x0 + col (R202). -/
def blitRow (b : Display × Bool) (x0 py : Nat) (row : Byte) : Display × Bool :=
  (List.range 8).foldl (fun b col => if row.getLsbD (7 - col) then blitPixel b (x0 + col) py else b) b

/-- The rows from `y0` down (R202). -/
def blitRows (b : Display × Bool) (x0 : Nat) : Nat → List Byte → Display × Bool
  | _, [] => b
  | y0, row :: rows => blitRows (blitRow b x0 y0 row) x0 (y0 + 1) rows

/-- The display replaced and `redraw` set, changed pixels or not (R38, R207). -/
def State.showDisplay (s : State) (d : Display) : State := { s with disp := d, redraw := true }

/-! ## The keypad -/

/-- `key[k]`. -/
def State.keyDown (s : State) (k : Key) : Bool := s.keys[k.val]

/-- The smallest number of a pressed key, if any is pressed (R224, R225).
DESIGN CHOICE of the spec (D18), log 12; unsafe. -/
def State.lowestKey (s : State) : Option Key := (List.finRange 16).find? s.keyDown

/-! ## The free random byte -/

/-- The next free random byte (R166); log 2. -/
def State.nextRnd (s : State) : Byte := Config.rndByte s.draws

/-- The state after that byte has been drawn. -/
def State.drawn (s : State) : State := { s with draws := s.draws + 1 }

/-! ## Placing an instruction -/

/-- The state with the word's two bytes in memory where the next Fetch reads them. Where `pc` is 0x0FFF or more no fetch can
succeed (R52) and nothing is placed. DESIGN CHOICE for that case, log 24; safe. -/
def State.placeAtPc (s : State) (w : Word) : State :=
  if inBounds s.pc.toNat 2 then s.storeBytes s.pc.toNat (bytesOfWord w) else s

end Sys2Proof.Machine
end

