-- ==== Sys2Proof/Machine/Operands.lean ====
section
/-! DEFINITION. The operand forms (30_encoding.md R86, R87): immediates as they stand, never sign-extended; the 12-bit
address, zero-extended; the masked address sums of `BNNN`, `FX1E` and `FX29` (10_state.md R24, R25); the key that a register
selects (41_skips.md R137); the BCD digits of `FX33` (43_index_memory.md R184). A register operand is `State.reg`, a memory
operand `memory[index + i]` is a range from `State.indexAddr` (R87, R180). -/

namespace Sys2Proof.Machine

/-- `zext_16(NNN)` (R86). -/
def addressOf (nnn : BitVec 12) : Word := nnn.setWidth 16

/-- A byte zero-extended to 16 bits (R114, R182). -/
def wide (b : Byte) : Word := b.setWidth 16

/-- The 12-bit mask "after any opcode-derived assignment" (R24). -/
def mask12 (w : Word) : Word := w &&& Config.addrMask

/-- The target of `BNNN`: `(NNN + reg[0]) & 0x0FFF` (R114). -/
def State.jumpV0Target (s : State) (nnn : BitVec 12) : Word := mask12 (addressOf nnn + wide (s.reg 0))

/-- The new `index` of `FX1E`: `(index + reg[X]) & 0x0FFF` (R182). DESIGN CHOICE of the spec (D28: no flag), log 27; unsafe. -/
def State.indexPlus (s : State) (x : Reg) : Word := mask12 (s.index + wide (s.reg x))

/-- The new `index` of `FX29`: the whole byte times 5, masked (R183), with the font at `FONT_BASE` = 0 (R32).
DESIGN CHOICE of the spec (D5, D28), logs 5 and 27; unsafe. -/
def State.glyphAddr (s : State) (x : Reg) : Word := mask12 (wide (s.reg x) * BitVec.ofNat 16 Config.glyphBytes)

/-- The first address of a memory operand: `index`, not reduced modulo 4096 (R180). -/
def State.indexAddr (s : State) : Nat := s.index.toNat

/-- The key that `reg[X]` selects: its low four bits (R137). DESIGN CHOICE of the spec (D17), log 11; unsafe. -/
def State.keyOperand (s : State) (x : Reg) : Key := Fin.ofNat 16 (s.reg x &&& Config.keyIndexMask).toNat

/-- Hundreds, tens and units, each a whole byte (R184). -/
def bcdDigits (v : Byte) : List Byte :=
  [BitVec.ofNat 8 (v.toNat / 100), BitVec.ofNat 8 (v.toNat / 10 % 10), BitVec.ofNat 8 (v.toNat % 10)]

end Sys2Proof.Machine
end

