-- ==== Sys2Proof/Machine/ControlFlow.lean ====
section
/-! DEFINITION. Jumps, call and return (40_control_flow.md). They set `pc` and do not advance it as well (R110). -/

namespace Sys2Proof.Machine

/-- `00EE` RET (R117): the popped value, all 16 bits, no mask and no + 2. DESIGN CHOICE of the spec for the missing mask (D8),
log 6; the missing + 2 is explicit (C4), log 22; unsafe. -/
def execRet (s : State) : Host.Outcome State Fault Refusal :=
  outcomeOf (s.pop.map fun popped => popped.2.setPc popped.1)

/-- `1NNN` JP (R113). -/
def execJp (nnn : BitVec 12) (s : State) : Host.Outcome State Fault Refusal :=
  .next (s.setPc (addressOf nnn))

/-- `2NNN` CALL (R116): pushes the address of the call itself; log 22. -/
def execCall (nnn : BitVec 12) (s : State) : Host.Outcome State Fault Refusal :=
  outcomeOf ((s.push s.pc).map fun t => t.setPc (addressOf nnn))

/-- `BNNN` JP_V0 (R114): always register 0. -/
def execJpV0 (nnn : BitVec 12) (s : State) : Host.Outcome State Fault Refusal :=
  .next (s.setPc (s.jumpV0Target nnn))

end Sys2Proof.Machine
end

