-- ==== Sys2Proof/Machine/IndexMemory.lean ====
section
/-! DEFINITION. The index register and the memory-indirect instructions (43_index_memory.md). A range is checked whole before
anything is written (R59), and none of the block instructions moves `index` (R186).
DESIGN CHOICE of the spec for `index` (D14), log 10; unsafe. -/

namespace Sys2Proof.Machine

/-- `ANNN` LD_I (R181). -/
def execLdI (nnn : BitVec 12) (s : State) : Host.Outcome State Fault Refusal :=
  .next ((s.setIndex (addressOf nnn)).advance 2)

/-- `FX1E` ADD_I_VX (R182): no flag. -/
def execAddIVx (x : Reg) (s : State) : Host.Outcome State Fault Refusal :=
  .next ((s.setIndex (s.indexPlus x)).advance 2)

/-- `FX29` LD_F_VX (R183). -/
def execLdFVx (x : Reg) (s : State) : Host.Outcome State Fault Refusal :=
  .next ((s.setIndex (s.glyphAddr x)).advance 2)

/-- `FX33` LD_B_VX (R184): three digits from `index` up. -/
def execLdBVx (x : Reg) (s : State) : Host.Outcome State Fault Refusal :=
  outcomeOf ((s.memWriteBytes s.indexAddr (bcdDigits (s.reg x))).map fun t => t.advance 2)

/-- `FX55` LD_MEM_VX (R185): registers 0 through X. -/
def execLdMemVx (x : Reg) (s : State) : Host.Outcome State Fault Refusal :=
  outcomeOf ((s.memWriteBytes s.indexAddr (s.regsUpTo x)).map fun t => t.advance 2)

/-- `FX65` LD_VX_MEM (R187): registers 0 through X. -/
def execLdVxMem (x : Reg) (s : State) : Host.Outcome State Fault Refusal :=
  outcomeOf ((s.memReadBytes s.indexAddr (x.val + 1)).map fun bytes => (s.setRegsFrom bytes).advance 2)

end Sys2Proof.Machine
end

