-- ==== Sys2Proof/Machine/Flags.lean ====
section
/-! DEFINITION. The flag computations (42_load_alu.md): the only flag is `reg[15]`, written as 0x00 or 0x01 by `8XY4`, `8XY5`,
`8XY6`, `8XY7`, `8XYE` and by `DXYN` (R22, R150). No other instruction writes a flag (R156).
DESIGN CHOICE of the spec for the logic instructions (D13), log 9; unsafe. -/

namespace Sys2Proof.Machine

/-- The flag register (R22). -/
def flagReg : Reg := 15

/-- A flag as the byte that `reg[15]` receives, 0x00 or 0x01 (R22). -/
def flagByte (flag : Bool) : Byte := if flag then 1 else 0

/-- The carry out of bit 7 of a + b (R160). -/
def carryFlag (a b : Byte) : Bool := a.toNat + b.toNat > 255

/-- a - b needs no borrow, equal operands included (R161, R163). DESIGN CHOICE of the spec for equal operands (D29), log 14;
unsafe. -/
def noBorrowFlag (a b : Byte) : Bool := b.toNat ≤ a.toNat

/-- The bit a right shift moves out (R162). -/
def lowBitFlag (a : Byte) : Bool := a.getLsbD 0

/-- The bit a left shift moves out (R164). -/
def highBitFlag (a : Byte) : Bool := a.getLsbD 7

/-- `reg[15] <- flag`. -/
def State.setFlag (s : State) (flag : Bool) : State := s.setReg flagReg (flagByte flag)

/-- The end of a flag-writing ALU instruction: the result first, the flag second, so that the flag is what remains when
X = 0xF (R155); then `advance(2)`. -/
def State.writeResultAndFlag (s : State) (x : Reg) (result : Byte) (flag : Bool) : State :=
  ((s.setReg x result).setFlag flag).advance 2

end Sys2Proof.Machine
end

