-- ==== Sys2Proof/Machine/LoadAlu.lean ====
section
/-! DEFINITION. Register loads, the 8-bit ALU and the random byte (42_load_alu.md). Operands are read before anything is
written (R154); a flag is written after the result (R155); none can raise an error (R150). -/

namespace Sys2Proof.Machine

/-- `6XNN` LD_IMM (R151). -/
def execLdImm (x : Reg) (nn : Byte) (s : State) : Host.Outcome State Fault Refusal :=
  .next ((s.setReg x nn).advance 2)

/-- `7XNN` ADD_IMM (R152): no flag. -/
def execAddImm (x : Reg) (nn : Byte) (s : State) : Host.Outcome State Fault Refusal :=
  .next ((s.setReg x (s.reg x + nn)).advance 2)

/-- `8XY0` LD_REG (R153). -/
def execLdReg (x y : Reg) (s : State) : Host.Outcome State Fault Refusal :=
  .next ((s.setReg x (s.reg y)).advance 2)

/-- `8XY1` OR (R157): no flag (R156), log 9. -/
def execOr (x y : Reg) (s : State) : Host.Outcome State Fault Refusal :=
  .next ((s.setReg x (s.reg x ||| s.reg y)).advance 2)

/-- `8XY2` AND (R158): no flag (R156), log 9. -/
def execAnd (x y : Reg) (s : State) : Host.Outcome State Fault Refusal :=
  .next ((s.setReg x (s.reg x &&& s.reg y)).advance 2)

/-- `8XY3` XOR (R159): no flag (R156), log 9. -/
def execXor (x y : Reg) (s : State) : Host.Outcome State Fault Refusal :=
  .next ((s.setReg x (s.reg x ^^^ s.reg y)).advance 2)

/-- `8XY4` ADD_REG (R160). -/
def execAddReg (x y : Reg) (s : State) : Host.Outcome State Fault Refusal :=
  .next (s.writeResultAndFlag x (s.reg x + s.reg y) (carryFlag (s.reg x) (s.reg y)))

/-- `8XY5` SUB (R161). -/
def execSub (x y : Reg) (s : State) : Host.Outcome State Fault Refusal :=
  .next (s.writeResultAndFlag x (s.reg x - s.reg y) (noBorrowFlag (s.reg x) (s.reg y)))

/-- `8XY6` SHR (R162): `reg[X]` in place, Y ignored. DESIGN CHOICE of the spec (D12), log 8; unsafe. -/
def execShr (x _y : Reg) (s : State) : Host.Outcome State Fault Refusal :=
  .next (s.writeResultAndFlag x (s.reg x >>> 1) (lowBitFlag (s.reg x)))

/-- `8XY7` SUBN (R163). -/
def execSubn (x y : Reg) (s : State) : Host.Outcome State Fault Refusal :=
  .next (s.writeResultAndFlag x (s.reg y - s.reg x) (noBorrowFlag (s.reg y) (s.reg x)))

/-- `8XYE` SHL (R164): `reg[X]` in place, Y ignored. DESIGN CHOICE of the spec (D12), log 8; unsafe. -/
def execShl (x _y : Reg) (s : State) : Host.Outcome State Fault Refusal :=
  .next (s.writeResultAndFlag x (s.reg x <<< 1) (highBitFlag (s.reg x)))

/-- `reg[X] <- rnd & NN`, then `advance(2)`, for a given random byte (R165). -/
def State.loadRandom (s : State) (x : Reg) (nn rnd : Byte) : State :=
  (s.setReg x (rnd &&& nn)).advance 2

/-- `CXNN` RND (R165), the byte `rnd` a free draw (R166), log 2. -/
def execRnd (x : Reg) (nn : Byte) (s : State) : Host.Outcome State Fault Refusal :=
  .next (s.drawn.loadRandom x nn s.nextRnd)

end Sys2Proof.Machine
end

