-- ==== Sys2Proof/Machine/Screen.lean ====
section
/-! DEFINITION. Clear and the XOR-blit sprite engine (44_display.md). -/

namespace Sys2Proof.Machine

/-- `00E0` CLS (R201): `redraw` is set even if the display was blank; the flag register is not written. -/
def execCls (s : State) : Host.Outcome State Fault Refusal :=
  .next ((s.showDisplay 0).advance 2)

/-- The state after the rows are drawn at (`reg[X]`, `reg[Y]`), both read before any write (R202, R208): the display, the
collision flag written once at the end (R204), `redraw` set (R207), and `advance(2)`. -/
def State.drawSprite (s : State) (x y : Reg) (rows : List Byte) : State :=
  let drawn := blitRows (s.disp, false) (s.reg x).toNat (s.reg y).toNat rows
  ((s.showDisplay drawn.1).setFlag drawn.2).advance 2

/-- `DXYN` DRW (R202): N rows from `index` up, all of them bounds-checked first, none when N = 0 (R206); log 13. -/
def execDrw (x y : Reg) (n : BitVec 4) (s : State) : Host.Outcome State Fault Refusal :=
  outcomeOf ((s.memReadBytes s.indexAddr n.toNat).map fun rows => s.drawSprite x y rows)

end Sys2Proof.Machine
end

