-- ==== Sys2Proof/Machine/TimersKeys.lean ====
section
/-! DEFINITION. Timer access and the key wait (45_timers_keys.md). These instructions never decrement a timer (R220). -/

namespace Sys2Proof.Machine

/-- `FX07` LD_VX_DT (R221). -/
def execLdVxDt (x : Reg) (s : State) : Host.Outcome State Fault Refusal :=
  .next ((s.setReg x s.dt).advance 2)

/-- `FX0A` LD_VX_K (R224): with no key pressed nothing is written and `pc` stays, so the same instruction runs again; else the
lowest pressed key (R225). DEDUCED: a wait is a next state equal to the state, log 3; safe. -/
def execLdVxK (x : Reg) (s : State) : Host.Outcome State Fault Refusal :=
  match s.lowestKey with
  | none => .next s
  | some k => .next ((s.setReg x (BitVec.ofNat 8 k.val)).advance 2)

/-- `FX15` LD_DT_VX (R222). -/
def execLdDtVx (x : Reg) (s : State) : Host.Outcome State Fault Refusal :=
  .next ((s.setDt (s.reg x)).advance 2)

/-- `FX18` LD_ST_VX (R223). -/
def execLdStVx (x : Reg) (s : State) : Host.Outcome State Fault Refusal :=
  .next ((s.setSt (s.reg x)).advance 2)

end Sys2Proof.Machine
end

