-- ==== Sys2Proof/Machine/Step.lean ====
section
/-! DEFINITION. The step of the executing agent: Fetch, then DecodeExecute of the word (60_exceptions.md R254: "A model's step
relation for the executing agent is Step"). The other operations of the interface are in Machine/HostOps.lean; that a run of
`step` has none of them in between is log 16. -/

namespace Sys2Proof.Machine

/-- Step (R254): a Fetch error ends it with nothing changed; an unknown word is `UnknownOpcode` (R242); otherwise the
instruction runs at the unchanged `pc` (R23). -/
def step (s : State) : Host.Outcome State Fault Refusal :=
  match s.fetchWord with
  | .error f => .fault f
  | .ok w =>
    match decodeWord w with
    | .error _ => .fault (.unknownOpcode w)
    | .ok i => exec i s

/-- The state with the table's word stored where the next Fetch reads it; log 17. -/
def State.withFetchWord (s : State) (nbits w : Nat) : State := s.placeAtPc (tableWord nbits w)

end Sys2Proof.Machine
end

