-- ==== Sys2Proof/Machine/HostOps.lean ====
section
/-! DEFINITION. The operations of the interface (60_exceptions.md R250 to R262), each atomic: it answers a result and the state
after it. The driver's Fetch, DecodeExecute and Step take the random byte as the argument the spec gives them (R166); the step
of the machine draws it (log 2). A schedule is a list of operations, any interleaving (R262). There is no operation before the
first Initialize: a `State` is one that Initialize has made (R42, log 18). -/

namespace Sys2Proof.Machine

/-- The operations (R250, R261). SetKey's index is four bits wide, so no bad index can be expressed (R257, D21, log 17). -/
inductive Operation where
  /-- Initialize (R251) -/
  | initialise
  /-- LoadProgram (R258) -/
  | loadProgram (bytes : List Byte)
  /-- Fetch (R252) -/
  | fetch
  /-- DecodeExecute (R253) -/
  | decodeExecute (w : Word) (rnd : Byte)
  /-- Step (R254) -/
  | step (rnd : Byte)
  /-- TickTimers (R255) -/
  | tickTimers
  /-- TakeRedrawFlag (R256) -/
  | takeRedrawFlag
  /-- SetKey (R257) -/
  | setKey (k : Key) (pressed : Bool)
  /-- the snapshot of the display (R261) -/
  | snapshotDisplay
  /-- the snapshot of the registers (R261) -/
  | snapshotRegisters
  /-- the snapshot of the sound timer (R261) -/
  | snapshotSoundTimer
  deriving DecidableEq, Repr

/-- What an operation answers (R15): done, the would-block mark of a waiting `FX0A` (R226), a value, an error, or the refusal
of LoadProgram. -/
inductive OpResult where
  | ok
  | waiting
  | word (w : Word)
  | flag (b : Bool)
  | display (d : Display)
  | registers (v : Vector Byte 16)
  | soundTimer (v : Byte)
  | err (f : Fault)
  | refused (r : Refusal)
  deriving DecidableEq, Repr

/-- The numeric code of an error; 0 is `Ok` (R241). DESIGN CHOICE of the spec (D11), log 25; safe. -/
def Fault.code : Fault → Nat
  | .unknownOpcode _ => 1
  | .memoryBoundsError _ => 2
  | .stackOverflow _ => 3
  | .stackUnderflow _ => 4

/-- Initialize (R251): the reset state whatever the state was. The free draws go on, they do not start again: two executions
of `CXNN` may see any two values (R166), log 2. -/
def State.initialised (s : State) : State := { State.reset with draws := s.draws }

/-- One timer's tick: 1 less if nonzero (R255). -/
def tick (t : Byte) : Byte := if t = 0 then 0 else t - 1

/-- TickTimers (R255). -/
def State.ticked (s : State) : State := { s with dt := tick s.dt, st := tick s.st }

/-- `redraw <- 0`, of TakeRedrawFlag (R256). -/
def State.redrawTaken (s : State) : State := { s with redraw := false }

/-- SetKey (R257). -/
def State.withKey (s : State) (k : Key) (pressed : Bool) : State := { s with keys := s.keys.set k.val pressed }

/-- LoadProgram (R258): the bytes from the entry address up, `pc` not written, or a refusal that writes nothing. -/
def State.loadProgram (s : State) (bytes : List Byte) : OpResult × State :=
  if romWellFormed bytes then (.ok, s.storeBytes Config.entry.toNat bytes)
  else (.refused (.romTooLong bytes.length), s)

/-- The instruction with the random byte given as an argument (R253); only `CXNN` reads it (R166). -/
def execWithRnd (rnd : Byte) (i : Instr) (s : State) : Host.Outcome State Fault Refusal :=
  match i with
  | .rnd x nn => .next (s.loadRandom x nn rnd)
  | i => exec i s

/-- The instruction waits in this state: `FX0A` with no key pressed (R224, R226). -/
def waitsIn (i : Instr) (s : State) : Bool :=
  match i with
  | .ldVxK _ => s.lowestKey.isNone
  | _ => false

/-- DecodeExecute (R253): the word is an argument and is not compared with memory (R309). -/
def State.decodeExecute (s : State) (w : Word) (rnd : Byte) : OpResult × State :=
  match decodeWord w with
  | .error _ => (.err (.unknownOpcode w), s)
  | .ok i =>
    match execWithRnd rnd i s with
    | .next t => (if waitsIn i s then .waiting else .ok, t)
    | .fault f => (.err f, s)
    | .refused r => (.refused r, s)

/-- Step (R254). -/
def State.stepWith (s : State) (rnd : Byte) : OpResult × State :=
  match s.fetchWord with
  | .error f => (.err f, s)
  | .ok w => s.decodeExecute w rnd

/-- What each operation answers and the state after it. -/
def perform (op : Operation) (s : State) : OpResult × State :=
  match op with
  | .initialise => (.ok, s.initialised)
  | .loadProgram bytes => s.loadProgram bytes
  | .fetch =>
    match s.fetchWord with
    | .error f => (.err f, s)
    | .ok w => (.word w, s)
  | .decodeExecute w rnd => s.decodeExecute w rnd
  | .step rnd => s.stepWith rnd
  | .tickTimers => (.ok, s.ticked)
  | .takeRedrawFlag => (.flag s.redraw, s.redrawTaken)
  | .setKey k pressed => (.ok, s.withKey k pressed)
  | .snapshotDisplay => (.display s.disp, s)
  | .snapshotRegisters => (.registers s.regs, s)
  | .snapshotSoundTimer => (.soundTimer s.st, s)

/-- The state after a schedule of operations, in the order they are issued (R61, R262); an error is no end of it (R247). -/
def runOps : List Operation → State → State
  | [], s => s
  | op :: ops, s => runOps ops (perform op s).2

end Sys2Proof.Machine
end

