-- ==== Sys2Proof/Safety.lean ====
section
/-! DEFINITION. The terms that claims are stated in: the parts of the state one by one and what each instruction and operation
may write (10_state.md R43), when an instruction raises no error (60_exceptions.md R241), the invariant of every reachable state
(10_state.md R40), which display pixels a sprite covers (44_display.md R205), and runs without an error. -/

namespace Sys2Proof.Machine

/-! ## What may be written -/

/-- One part of the state: a register, a byte of memory, a pixel, a key, a stack slot or a whole scalar component (R20), or the
model's own counter. -/
inductive Component where
  | reg (r : Reg)
  | byte (a : Nat)
  | pixel (x : Fin 64) (y : Fin 32)
  | key (k : Key)
  | slot (k : Fin 16)
  | index
  | pc
  | sp
  | dt
  | st
  | redraw
  | draws
  deriving DecidableEq, Repr

/-- The part reads the same in both states. -/
def Component.Agrees (c : Component) (s t : State) : Prop :=
  match c with
  | .reg r => t.reg r = s.reg r
  | .byte a => t.byteAt a = s.byteAt a
  | .pixel x y => pixelAt t.disp x.val y.val = pixelAt s.disp x.val y.val
  | .key k => t.keyDown k = s.keyDown k
  | .slot k => t.stack[k.val] = s.stack[k.val]
  | .index => t.index = s.index
  | .pc => t.pc = s.pc
  | .sp => t.sp = s.sp
  | .dt => t.dt = s.dt
  | .st => t.st = s.st
  | .redraw => t.redraw = s.redraw
  | .draws => t.draws = s.draws

/-- A pixel of the display. -/
def Component.isPixel (c : Component) : Bool :=
  match c with
  | .pixel _ _ => true
  | _ => false

/-- A byte of memory at one of the `n` addresses from `base` up. -/
def Component.isByteIn (c : Component) (base n : Nat) : Bool :=
  match c with
  | .byte a => base ≤ a && a < base + n
  | _ => false

/-- One of `reg[0]` .. `reg[x]`. -/
def Component.isRegUpTo (c : Component) (x : Reg) : Bool :=
  match c with
  | .reg r => r ≤ x
  | _ => false

/-- The stack slot of that number. -/
def Component.isSlot (c : Component) (k : Nat) : Bool :=
  match c with
  | .slot j => j.val == k
  | _ => false

/-- The parts that an instruction may write besides `pc`, which every instruction may (R43): the destination register, the flag
register of R22's list, the bytes stored from `index` up, the slot at `sp`. -/
def mayWrite (i : Instr) (s : State) (c : Component) : Bool :=
  match i with
  | .cls => c.isPixel || c == .redraw
  | .ret => c == .sp
  | .jp _ => false
  | .call _ => c == .sp || c.isSlot s.sp.val
  | .seImm _ _ => false
  | .sneImm _ _ => false
  | .seReg _ _ => false
  | .ldImm x _ => c == .reg x
  | .addImm x _ => c == .reg x
  | .ldReg x _ => c == .reg x
  | .orReg x _ => c == .reg x
  | .andReg x _ => c == .reg x
  | .xorReg x _ => c == .reg x
  | .addReg x _ => c == .reg x || c == .reg 15
  | .sub x _ => c == .reg x || c == .reg 15
  | .shr x _ => c == .reg x || c == .reg 15
  | .subn x _ => c == .reg x || c == .reg 15
  | .shl x _ => c == .reg x || c == .reg 15
  | .sneReg _ _ => false
  | .ldI _ => c == .index
  | .jpV0 _ => false
  | .rnd x _ => c == .reg x || c == .draws
  | .drw _ _ _ => c.isPixel || c == .redraw || c == .reg 15
  | .skp _ => false
  | .sknp _ => false
  | .ldVxDt x => c == .reg x
  | .ldVxK x => c == .reg x
  | .ldDtVx _ => c == .dt
  | .ldStVx _ => c == .st
  | .addIVx _ => c == .index
  | .ldFVx _ => c == .index
  | .ldBVx _ => c.isByteIn s.indexAddr 3
  | .ldMemVx x => c.isByteIn s.indexAddr (x.val + 1)
  | .ldVxMem x => c.isRegUpTo x

/-- The registers that an instruction reads (R43): the operands it names, `reg[0]` for `BNNN`, `reg[0]` .. `reg[X]` for `FX55`;
the shifts read X only (R162, R164), and no instruction reads `reg[15]` unless it names it (R22). -/
def readsReg (i : Instr) (r : Reg) : Bool :=
  match i with
  | .cls => false
  | .ret => false
  | .jp _ => false
  | .call _ => false
  | .seImm x _ => r == x
  | .sneImm x _ => r == x
  | .seReg x y => r == x || r == y
  | .ldImm _ _ => false
  | .addImm x _ => r == x
  | .ldReg _ y => r == y
  | .orReg x y => r == x || r == y
  | .andReg x y => r == x || r == y
  | .xorReg x y => r == x || r == y
  | .addReg x y => r == x || r == y
  | .sub x y => r == x || r == y
  | .shr x _ => r == x
  | .subn x y => r == x || r == y
  | .shl x _ => r == x
  | .sneReg x y => r == x || r == y
  | .ldI _ => false
  | .jpV0 _ => r == 0
  | .rnd _ _ => false
  | .drw x y _ => r == x || r == y
  | .skp x => r == x
  | .sknp x => r == x
  | .ldVxDt _ => false
  | .ldVxK _ => false
  | .ldDtVx x => r == x
  | .ldStVx x => r == x
  | .addIVx x => r == x
  | .ldFVx x => r == x
  | .ldBVx x => r == x
  | .ldMemVx x => r ≤ x
  | .ldVxMem _ => false

/-- The parts that an operation of the host which runs no instruction may write (R250, R43); an operation that runs one, and
Initialize and LoadProgram, are described by their own rules. -/
def Operation.mayWrite (op : Operation) (c : Component) : Bool :=
  match op with
  | .initialise => true
  | .loadProgram bytes => c.isByteIn Config.entry.toNat bytes.length
  | .fetch => false
  | .decodeExecute _ _ => true
  | .step _ => true
  | .tickTimers => c == .dt || c == .st
  | .takeRedrawFlag => c == .redraw
  | .setKey k _ => c == .key k
  | .snapshotDisplay => false
  | .snapshotRegisters => false
  | .snapshotSoundTimer => false

/-! ## When an instruction raises no error -/

/-- No error condition of R241 holds for the instruction: the stack has room for `2NNN` and an entry for `00EE`, and the range
that `DXYN`, `FX33`, `FX55` or `FX65` accesses lies in the memory. Every other instruction raises nothing (R248). -/
def errorFree (i : Instr) (s : State) : Bool :=
  match i with
  | .cls => true
  | .ret => 0 < s.sp.val
  | .jp _ => true
  | .call _ => s.sp.val < 16
  | .seImm _ _ => true
  | .sneImm _ _ => true
  | .seReg _ _ => true
  | .ldImm _ _ => true
  | .addImm _ _ => true
  | .ldReg _ _ => true
  | .orReg _ _ => true
  | .andReg _ _ => true
  | .xorReg _ _ => true
  | .addReg _ _ => true
  | .sub _ _ => true
  | .shr _ _ => true
  | .subn _ _ => true
  | .shl _ _ => true
  | .sneReg _ _ => true
  | .ldI _ => true
  | .jpV0 _ => true
  | .rnd _ _ => true
  | .drw _ _ n => n.toNat == 0 || s.index.toNat + n.toNat - 1 ≤ 4095
  | .skp _ => true
  | .sknp _ => true
  | .ldVxDt _ => true
  | .ldVxK _ => true
  | .ldDtVx _ => true
  | .ldStVx _ => true
  | .addIVx _ => true
  | .ldFVx _ => true
  | .ldBVx _ => s.index.toNat + 2 ≤ 4095
  | .ldMemVx x => s.index.toNat + x.val ≤ 4095
  | .ldVxMem x => s.index.toNat + x.val ≤ 4095

/-- The error that R241 gives an instruction, if its condition holds: `StackUnderflow(sp)` for `00EE`, `StackOverflow(sp)` for
`2NNN`, `MemoryBoundsError(index)` for the four memory-indirect ones. -/
def errorOf (i : Instr) (s : State) : Option Fault :=
  if errorFree i s then none
  else
    match i with
    | .ret => some (.stackUnderflow s.sp.val)
    | .call _ => some (.stackOverflow s.sp.val)
    | _ => some (.memoryBoundsError s.index.toNat)

/-- The instructions that write the flag register as a side effect, R22's list. -/
def writesFlag (i : Instr) : Bool :=
  match i with
  | .addReg _ _ | .sub _ _ | .shr _ _ | .subn _ _ | .shl _ _ | .drw _ _ _ => true
  | _ => false

/-! ## The invariant -/

/-- What holds in every reachable state and is not in the types already (R40 b): the memory is in canonical form and `index` is
at most 0x0FFF. That `sp` is at most 16 and that keys, pixels and `redraw` are bits, the types of `State` say (R40 a, c). -/
abbrev State.Inv (s : State) : Prop := s.mem.wf = true ∧ s.index.toNat ≤ 0x0FFF

/-! ## What a sprite covers -/

/-- The sprite of `n` rows at `index`, drawn at column `x0` and row `y0`, has a set bit over the pixel at column `px` and row
`py`: bit 7 of a row byte is the leftmost pixel (R202, R205). -/
def State.spriteCovers (s : State) (x0 y0 n px py : Nat) : Bool :=
  x0 ≤ px && px < x0 + 8 && y0 ≤ py && py < y0 + n &&
    (s.byteAt (s.index.toNat + (py - y0))).getLsbD (7 - (px - x0))

/-! ## What a Fetch sees -/

/-- The next Fetch, where it reads the address `a`, reads `b` there: as the high byte when `pc` = `a` (and the word's second byte lies
in the memory), as the low byte when `pc` + 1 = `a` (R52, R64). -/
def State.FetchSees (s : State) (a : Nat) (b : Byte) : Prop :=
  (s.pc.toNat = a → a + 1 ≤ 4095 → ∃ low, s.fetchWord = .ok (wordOfBytes b low)) ∧
  (s.pc.toNat + 1 = a → ∃ high, s.fetchWord = .ok (wordOfBytes high b))

/-! ## Runs -/

/-- `pc` points at a `1NNN` whose `NNN` equals `pc`: the quiescent loop (R270 a). -/
def State.Quiescent (s : State) : Prop :=
  ∃ nnn : BitVec 12, s.fetchWord = .ok (encodeWord (.jp nnn)) ∧ s.pc.toNat = nnn.toNat

/-- The next `n` Steps of the machine return no error. -/
def runsSafely : Nat → State → Bool
  | 0, _ => true
  | n + 1, s =>
    match step s with
    | .next t => runsSafely n t
    | .fault _ => false
    | .refused _ => false

/-- The words pushed one after the other (R115). -/
def pushAll : List Word → State → Except Fault State
  | [], s => .ok s
  | w :: ws, s =>
    match s.push w with
    | .ok t => pushAll ws t
    | .error f => .error f

/-- `n` pops: the words in the order they come off, and the state after them (R115). -/
def popAll : Nat → State → Except Fault (List Word × State)
  | 0, s => .ok ([], s)
  | n + 1, s =>
    match s.pop with
    | .ok (w, t) => (popAll n t).map fun r => (w :: r.1, r.2)
    | .error f => .error f

end Sys2Proof.Machine
end

