-- ==== Sys2Proof/Certificates/Slice0/Obligations.lean ====
section
/-! DEFINITION. The statements for the provers. Each docstring says which rule of spec/ a statement formalises; where a clause is
a choice that the spec marks as its own or that the model made, it names the log entry (notes/assumptions/<n>.md). "Next t"
is the outcome in which the instruction completes; `t = { s with … }` says that everything not named is unchanged. -/

open Sys2Proof Sys2Proof.Machine

/-! ## Reset and the invariant -/

/-- R41, R291, the values of every component after Initialize; the font's place and bytes are logs 4 and 5, `redraw` and the keys
at 0 are log 19. -/
def Obligations.ResetStateValues : Prop :=
  State.reset.pc = 0x200 ∧ State.reset.index = 0 ∧ State.reset.sp.val = 0 ∧ State.reset.dt = 0 ∧ State.reset.st = 0 ∧
  State.reset.redraw = false ∧ (∀ r, State.reset.reg r = 0) ∧ (∀ k : Fin 16, State.reset.stack[k.val] = 0) ∧
  (∀ k, State.reset.keyDown k = false) ∧ (∀ x y, x < 64 → y < 32 → pixelAt State.reset.disp x y = false) ∧
  (∀ a, 0x50 ≤ a → a < 4096 → State.reset.byteAt a = 0) ∧
  (∀ a, a < 0x50 → some (State.reset.byteAt a) = Config.fontData[a]?)

/-- The invariant holds after reset: `index` at most 0x0FFF (R40 b), and the memory in canonical form, which is the model's own
representation and no clause of the spec's list (log 23). -/
def Obligations.ResetStateMeetsTheInvariant : Prop := State.reset.Inv

/-- Every step of the machine, from every state that meets the invariant, keeps it: `index` stays at most 0x0FFF (R25, R40 b),
and the memory stays in canonical form, the model's own representation (log 23). -/
def Obligations.EveryStepKeepsTheInvariant : Prop :=
  ∀ s t, s.Inv → step s = .next t → t.Inv

/-- "After Initialize and any sequence of operations" (R40), here from every state that meets the invariant and so from reset:
`index` at most 0x0FFF (b), `sp` at most 16 (a), which the model's type of `sp` says already (log 21), and `reg[15]` 0 or 1 right
after an instruction of R22's list (d). The invariant also holds the canonical form of the memory, the model's own representation
and no clause of R40 (log 23). -/
def Obligations.EveryScheduleKeepsTheInvariant : Prop :=
  ∀ s (ops : List Operation), s.Inv →
    (runOps ops s).Inv ∧ (runOps ops s).sp.val ≤ 16 ∧
    ∀ i t, writesFlag i = true → exec i (runOps ops s) = .next t → t.reg 15 = 0 ∨ t.reg 15 = 1

/-! ## Encoding -/

/-- Every instruction, with every operand at every value, decodes from its own word and from its bytes (R80, R83, R84). -/
def Obligations.DecodeOfEncodeIsTheInstruction : Prop :=
  ∀ (i : Instr) (rest : List Byte),
    decodeWord (encodeWord i) = .ok i ∧ decode (encode i ++ rest) = .ok (i, rest)

/-- No bit of a word is dropped: a word that decodes is the word of its instruction, the ignored Y of the shifts included
(R84, R91). -/
def Obligations.EncodeOfDecodeIsTheWord : Prop :=
  ∀ (w : Word) (i : Instr), decodeWord w = .ok i → encodeWord i = w

/-- The decoder, written from the algorithm of R83, and the opcode map, written from the table of R84, agree: a word decodes if
and only if a row selects it, and the one row that does is the instruction's. -/
def Obligations.DecoderAcceptsExactlyTheOpcodeMap : Prop :=
  ∀ w : Word, ((∃ i, decodeWord w = .ok i) ↔ wordWellFormed w = true) ∧
    ∀ i, decodeWord w = .ok i → ∀ r ∈ opcodeMap, r.selects w = (r.mnemonic == i.mnemonic)

/-- The words that are no instruction are those of R88's table, family by family (its counts are not restated). -/
def Obligations.UnknownWordsAreTheTableOfFamilies : Prop :=
  ∀ w : Word, decodeWord w = .error (.unknownOpcode w) ↔
    (fieldOp w = 0x0 ∧ fieldNNN w ≠ 0x0E0 ∧ fieldNNN w ≠ 0x0EE) ∨
    (fieldOp w = 0x5 ∧ fieldN w ≠ 0) ∨
    (fieldOp w = 0x8 ∧ fieldN w ∈ [0x8, 0x9, 0xA, 0xB, 0xC, 0xD, (0xF : BitVec 4)]) ∨
    (fieldOp w = 0x9 ∧ fieldN w ≠ 0) ∨
    (fieldOp w = 0xE ∧ fieldNN w ∉ [0x9E, (0xA1 : Byte)]) ∨
    (fieldOp w = 0xF ∧ fieldNN w ∉ [0x07, 0x0A, 0x15, 0x18, 0x1E, 0x29, 0x33, 0x55, (0x65 : Byte)])

/-- R242: DecodeExecute of a word that is no instruction is `Err(UnknownOpcode, w)` and changes nothing; a Step that fetches one
fails so, and fails again when it is repeated. -/
def Obligations.UnknownOpcodeChangesNothing : Prop :=
  ∀ (s : State) (w : Word) (rnd again : Byte), wordWellFormed w = false →
    perform (.decodeExecute w rnd) s = (.err (.unknownOpcode w), s) ∧
    (s.fetchWord = .ok w →
      step s = .fault (.unknownOpcode w) ∧ perform (.step rnd) s = (.err (.unknownOpcode w), s) ∧
      perform (.step again) (perform (.step rnd) s).2 = (.err (.unknownOpcode w), s))

/-- Words written out from the table of R84, one or more of each of the sixteen families, and unknown ones of R88. The meaning of
0x8126 and 0x8127 is what the spec takes from general knowledge (log 15). -/
def Obligations.SampleWordsDecode : Prop :=
  decodeWord 0x00E0 = .ok .cls ∧ decodeWord 0x00EE = .ok .ret ∧ decodeWord 0x1ABC = .ok (.jp 0xABC) ∧
  decodeWord 0x2123 = .ok (.call 0x123) ∧ decodeWord 0x3A12 = .ok (.seImm 0xA 0x12) ∧
  decodeWord 0x45E7 = .ok (.sneImm 5 0xE7) ∧ decodeWord 0x5120 = .ok (.seReg 1 2) ∧ decodeWord 0x6F07 = .ok (.ldImm 0xF 7) ∧
  decodeWord 0x7381 = .ok (.addImm 3 0x81) ∧ decodeWord 0x8126 = .ok (.shr 1 2) ∧ decodeWord 0x8127 = .ok (.subn 1 2) ∧
  decodeWord 0x9E30 = .ok (.sneReg 0xE 3) ∧ decodeWord 0xA345 = .ok (.ldI 0x345) ∧ decodeWord 0xBC56 = .ok (.jpV0 0xC56) ∧
  decodeWord 0xC30F = .ok (.rnd 3 0x0F) ∧ decodeWord 0xD12F = .ok (.drw 1 2 0xF) ∧ decodeWord 0xE39E = .ok (.skp 3) ∧
  decodeWord 0xF21E = .ok (.addIVx 2) ∧ decodeWord 0xF30A = .ok (.ldVxK 3) ∧ decodeWord 0xF165 = .ok (.ldVxMem 1) ∧
  decodeWord 0x5121 = .error (.unknownOpcode 0x5121) ∧ decodeWord 0x0123 = .error (.unknownOpcode 0x0123)

/-- R84: 34 rows, and "no word matches two rows". -/
def Obligations.OpcodeMapRowsAreDisjoint : Prop :=
  opcodeMap.length = 34 ∧ opcodeMap.Pairwise fun r q => r.disjoint q = true ∧ r.mnemonic ≠ q.mnemonic

/-! ## Fetch and step -/

/-- R52: Fetch reads the bytes at `pc` and `pc` + 1, the first the high byte, and fails exactly when `pc` + 1 > 4095; it changes
nothing. -/
def Obligations.FetchReadsTwoBytesBigEndian : Prop :=
  ∀ s : State,
    (s.pc.toNat + 1 ≤ 4095 → ∃ w, s.fetchWord = .ok w ∧
      w.toNat = 256 * (s.byteAt s.pc.toNat).toNat + (s.byteAt (s.pc.toNat + 1)).toNat ∧
      perform .fetch s = (.word w, s)) ∧
    (4095 < s.pc.toNat + 1 → s.fetchWord = .error (.memoryBoundsError s.pc.toNat) ∧
      perform .fetch s = (.err (.memoryBoundsError s.pc.toNat), s))

/-- When the two bytes at `pc` decode to an instruction, the step of the machine is that instruction on that state, nothing
around it; bytes that do not decode, and a `pc` past the last pair of bytes, are the errors (R254). -/
def Obligations.StepRunsTheDecodedInstruction : Prop :=
  ∀ (s : State),
    (s.pc.toNat + 1 ≤ 4095 →
      (∀ i, decode [s.byteAt s.pc.toNat, s.byteAt (s.pc.toNat + 1)] = .ok (i, []) → step s = exec i s) ∧
      (∀ w, decode [s.byteAt s.pc.toNat, s.byteAt (s.pc.toNat + 1)] = .error (.unknownOpcode w) →
        step s = .fault (.unknownOpcode w))) ∧
    (4095 < s.pc.toNat + 1 → step s = .fault (.memoryBoundsError s.pc.toNat))

/-- The machine's step is the operation Step of R254 on the next free random byte; only the model's counter of draws may differ
(log 2), and a waiting `FX0A` is a next state there (log 3). It never refuses. -/
def Obligations.StepIsTheStepOperationOnAFreeByte : Prop :=
  ∀ s : State,
    (∀ t, step s = .next t → ∃ r u, perform (.step s.nextRnd) s = (r, u) ∧ (r = .ok ∨ r = .waiting) ∧
      t = { u with draws := t.draws }) ∧
    (∀ f, step s = .fault f ↔ perform (.step s.nextRnd) s = (.err f, s)) ∧
    (∀ q, step s ≠ .refused q)

/-- The word of an instruction placed where Fetch reads is the instruction that the next step runs, and placing it changes those
two bytes and nothing else. The memory is in canonical form, which every reachable state's is. -/
def Obligations.PlacedInstructionIsTheNextOneRun : Prop :=
  ∀ (s : State) (i : Instr), s.mem.wf = true → s.pc.toNat + 1 ≤ 4095 →
    step (s.withFetchWord 16 (encodeWord i).toNat) = exec i (s.withFetchWord 16 (encodeWord i).toNat) ∧
    ∀ c : Component, c.isByteIn s.pc.toNat 2 = false → c.Agrees s (s.withFetchWord 16 (encodeWord i).toNat)

/-- Memories in canonical form that read the same at every address are the same list (the model's own representation,
log 23). -/
def Obligations.CanonicalMemoriesThatReadAlikeAreEqual : Prop :=
  ∀ m m' : Memory, m.wf = true → m'.wf = true → (∀ a, m.read a = m'.read a) → m = m'

/-! ## Control flow -/

/-- R113: `1NNN` sets `pc` and nothing else; to its own address it changes nothing; to 0xFFF it is accepted and the next Fetch
fails. -/
def Obligations.JumpSetsTheProgramCounter : Prop :=
  ∀ (nnn : BitVec 12) (s : State), ∃ t, exec (.jp nnn) s = .next t ∧ t.pc.toNat = nnn.toNat ∧ t = { s with pc := t.pc } ∧
    (s.pc.toNat = nnn.toNat → t = s) ∧ (nnn = 0xFFF → t.fetchWord = .error (.memoryBoundsError 0x0FFF))

/-- R114: `BNNN` adds `reg[0]`, always that register, and masks to 12 bits; no flag. -/
def Obligations.IndexedJumpAddsRegisterZero : Prop :=
  ∀ (nnn : BitVec 12) (s : State), ∃ t, exec (.jpV0 nnn) s = .next t ∧
    t.pc.toNat = (nnn.toNat + (s.reg 0).toNat) % 4096 ∧ t = { s with pc := t.pc }

/-- R116: `2NNN` pushes the address it was fetched from, or fails with `StackOverflow` when `sp` = 16. -/
def Obligations.CallPushesItsOwnAddress : Prop :=
  ∀ (nnn : BitVec 12) (s : State),
    (s.sp.val < 16 → ∃ t, exec (.call nnn) s = .next t ∧ t.pc.toNat = nnn.toNat ∧ t.sp.val = s.sp.val + 1 ∧
      (∀ k : Fin 16, t.stack[k.val] = if k.val = s.sp.val then s.pc else s.stack[k.val]) ∧
      t = { s with pc := t.pc, sp := t.sp, stack := t.stack }) ∧
    (s.sp.val = 16 → exec (.call nnn) s = .fault (.stackOverflow 16))

/-- R117: `00EE` sets `pc` to the popped slot, all 16 bits (log 6), nothing added (log 22); the slot keeps its value (log 20);
an empty stack is `StackUnderflow`. -/
def Obligations.ReturnPopsTheProgramCounter : Prop :=
  ∀ s : State,
    (∀ k : Fin 16, s.sp.val = k.val + 1 → ∃ t, exec .ret s = .next t ∧ t.pc = s.stack[k.val] ∧ t.sp.val = k.val ∧
      t = { s with pc := t.pc, sp := t.sp }) ∧
    (s.sp.val = 0 → exec .ret s = .fault (.stackUnderflow 0))

/-- R118: the `00EE` that matches a `2NNN` at p sets `pc` = p, whatever ran in between, as long as the stack is as the call left
it. -/
def Obligations.ReturnGoesBackToTheCallItself : Prop :=
  ∀ (nnn : BitVec 12) (s t u : State), exec (.call nnn) s = .next t → u.stack = t.stack → u.sp = t.sp →
    ∃ r, exec .ret u = .next r ∧ r.pc = s.pc ∧ r.sp = s.sp

/-- R115: pushes go to the slots from `sp` up, the words come off last in first out, sixteen fit and the next push is
`StackOverflow`, a pop of an empty stack is `StackUnderflow`. -/
def Obligations.StackIsLastInFirstOutAndSixteenDeep : Prop :=
  ∀ (s : State) (ws : List Word),
    (s.sp.val + ws.length ≤ 16 → ∃ t u, pushAll ws s = .ok t ∧ t.sp.val = s.sp.val + ws.length ∧
      (∀ k, k < ws.length → t.stack[s.sp.val + k]? = ws[k]?) ∧
      popAll ws.length t = .ok (ws.reverse, u) ∧ u = { t with sp := s.sp }) ∧
    (16 < s.sp.val + ws.length → pushAll ws s = .error (.stackOverflow 16)) ∧
    (s.sp.val = 0 → popAll 1 s = .error (.stackUnderflow 0))

/-- R112: what each instruction does to `pc`, the whole table; an error leaves it. -/
def Obligations.ProgramCounterAfterEachInstruction : Prop :=
  (∀ (i : Instr) (s t : State), exec i s = .next t →
    match i with
    | .jp nnn => t.pc.toNat = nnn.toNat
    | .call nnn => t.pc.toNat = nnn.toNat
    | .jpV0 nnn => t.pc.toNat = (nnn.toNat + (s.reg 0).toNat) % 4096
    | .ret => s.sp.val ≠ 0 ∧ s.stack[s.sp.val - 1]? = some t.pc
    | .seImm x nn => t.pc = s.pc + if s.reg x = nn then 4 else 2
    | .sneImm x nn => t.pc = s.pc + if s.reg x = nn then 2 else 4
    | .seReg x y => t.pc = s.pc + if s.reg x = s.reg y then 4 else 2
    | .sneReg x y => t.pc = s.pc + if s.reg x = s.reg y then 2 else 4
    | .skp x => t.pc = s.pc + if s.keyDown (s.keyOperand x) = true then 4 else 2
    | .sknp x => t.pc = s.pc + if s.keyDown (s.keyOperand x) = true then 2 else 4
    | .ldVxK _ => t.pc = if ∀ k, s.keyDown k = false then s.pc else s.pc + 2
    | _ => t.pc = s.pc + 2) ∧
  ∀ (w : Word) (rnd : Byte) (f : Fault) (s t : State), perform (.decodeExecute w rnd) s = (.err f, t) → t.pc = s.pc

/-! ## Skips -/

/-- R131, R132: `3XNN` skips when the register equals the immediate, `4XNN` when it does not; nothing but `pc` changes. -/
def Obligations.ImmediateSkips : Prop :=
  ∀ (x : Reg) (nn : Byte) (s : State),
    (s.reg x = nn → exec (.seImm x nn) s = .next { s with pc := s.pc + 4 } ∧
      exec (.sneImm x nn) s = .next { s with pc := s.pc + 2 }) ∧
    (s.reg x ≠ nn → exec (.seImm x nn) s = .next { s with pc := s.pc + 2 } ∧
      exec (.sneImm x nn) s = .next { s with pc := s.pc + 4 })

/-- R133, R134: `5XY0` skips when the registers are equal, so always for X = Y, `9XY0` when they differ, so never for X = Y; with
N other than 0 neither word is an instruction. -/
def Obligations.RegisterSkips : Prop :=
  ∀ (x y : Reg) (s : State),
    (s.reg x = s.reg y → exec (.seReg x y) s = .next { s with pc := s.pc + 4 } ∧
      exec (.sneReg x y) s = .next { s with pc := s.pc + 2 }) ∧
    (s.reg x ≠ s.reg y → exec (.seReg x y) s = .next { s with pc := s.pc + 2 } ∧
      exec (.sneReg x y) s = .next { s with pc := s.pc + 4 }) ∧
    exec (.seReg x x) s = .next { s with pc := s.pc + 4 } ∧ exec (.sneReg x x) s = .next { s with pc := s.pc + 2 } ∧
    ∀ n : BitVec 4, n ≠ 0 → decodeWord (formXYN 0x5 x y n) = .error (.unknownOpcode (formXYN 0x5 x y n)) ∧
      decodeWord (formXYN 0x9 x y n) = .error (.unknownOpcode (formXYN 0x9 x y n))

/-- R135, R136: `EX9E` skips when the key is down, `EXA1` when it is not; the key is the low four bits of the register, which is
the spec's choice (R137, log 11). -/
def Obligations.KeySkipsTestTheLowNibble : Prop :=
  ∀ (x : Reg) (k : Key) (s : State), (s.reg x).toNat % 16 = k.val →
    (s.keyDown k = true → exec (.skp x) s = .next { s with pc := s.pc + 4 } ∧
      exec (.sknp x) s = .next { s with pc := s.pc + 2 }) ∧
    (s.keyDown k = false → exec (.skp x) s = .next { s with pc := s.pc + 2 } ∧
      exec (.sknp x) s = .next { s with pc := s.pc + 4 })

/-! ## Loads and the ALU -/

/-- R151, R152: `6XNN` loads the immediate, `7XNN` adds it modulo 256 and records no carry. -/
def Obligations.ImmediateLoadAndAdd : Prop :=
  ∀ (x : Reg) (nn : Byte) (s : State),
    (∃ t, exec (.ldImm x nn) s = .next t ∧ t.reg x = nn ∧ (∀ r, r ≠ x → t.reg r = s.reg r) ∧
      t = { s with regs := t.regs, pc := s.pc + 2 }) ∧
    (∃ t, exec (.addImm x nn) s = .next t ∧ (t.reg x).toNat = ((s.reg x).toNat + nn.toNat) % 256 ∧
      (∀ r, r ≠ x → t.reg r = s.reg r) ∧ t = { s with regs := t.regs, pc := s.pc + 2 })

/-- R153, R157, R158, R159, bit by bit. That `reg[15]` keeps its value is the spec's choice (R156, log 9). -/
def Obligations.MoveAndLogicOperations : Prop :=
  ∀ (x y : Reg) (s : State),
    (∃ t, exec (.ldReg x y) s = .next t ∧ t.reg x = s.reg y ∧ (∀ r, r ≠ x → t.reg r = s.reg r) ∧
      t = { s with regs := t.regs, pc := s.pc + 2 }) ∧
    (∃ t, exec (.orReg x y) s = .next t ∧
      (∀ k, k < 8 → (t.reg x).getLsbD k = ((s.reg x).getLsbD k || (s.reg y).getLsbD k)) ∧
      (∀ r, r ≠ x → t.reg r = s.reg r) ∧ t = { s with regs := t.regs, pc := s.pc + 2 }) ∧
    (∃ t, exec (.andReg x y) s = .next t ∧
      (∀ k, k < 8 → (t.reg x).getLsbD k = ((s.reg x).getLsbD k && (s.reg y).getLsbD k)) ∧
      (∀ r, r ≠ x → t.reg r = s.reg r) ∧ t = { s with regs := t.regs, pc := s.pc + 2 }) ∧
    (∃ t, exec (.xorReg x y) s = .next t ∧
      (∀ k, k < 8 → (t.reg x).getLsbD k = ((s.reg x).getLsbD k ^^ (s.reg y).getLsbD k)) ∧
      (∀ r, r ≠ x → t.reg r = s.reg r) ∧ t = { s with regs := t.regs, pc := s.pc + 2 })

/-- R160: the sum modulo 256 in `reg[X]` and the carry in `reg[15]`, which is what `reg[15]` holds when X = 0xF too. -/
def Obligations.AddWithCarryFlag : Prop :=
  ∀ (x y : Reg) (s : State), ∃ t, exec (.addReg x y) s = .next t ∧
    (x ≠ 15 → (t.reg x).toNat = ((s.reg x).toNat + (s.reg y).toNat) % 256) ∧
    t.reg 15 = (if (s.reg x).toNat + (s.reg y).toNat > 255 then 1 else 0) ∧
    (∀ r, r ≠ x → r ≠ 15 → t.reg r = s.reg r) ∧ t = { s with regs := t.regs, pc := s.pc + 2 }

/-- R161, R163: the difference modulo 256 and the flag 1 = no borrow; that equal operands give flag 1 is the spec's inference
(log 14). -/
def Obligations.SubtractWithNoBorrowFlag : Prop :=
  ∀ (x y : Reg) (s : State),
    (∃ t, exec (.sub x y) s = .next t ∧
      (x ≠ 15 → ((t.reg x).toNat : Int) = ((s.reg x).toNat - (s.reg y).toNat : Int) % 256) ∧
      t.reg 15 = (if (s.reg y).toNat ≤ (s.reg x).toNat then 1 else 0) ∧
      (∀ r, r ≠ x → r ≠ 15 → t.reg r = s.reg r) ∧ t = { s with regs := t.regs, pc := s.pc + 2 }) ∧
    (∃ t, exec (.subn x y) s = .next t ∧
      (x ≠ 15 → ((t.reg x).toNat : Int) = ((s.reg y).toNat - (s.reg x).toNat : Int) % 256) ∧
      t.reg 15 = (if (s.reg x).toNat ≤ (s.reg y).toNat then 1 else 0) ∧
      (∀ r, r ≠ x → r ≠ 15 → t.reg r = s.reg r) ∧ t = { s with regs := t.regs, pc := s.pc + 2 })

/-- R162, R164: `reg[X]` shifted by one in place and the bit moved out in `reg[15]`; that Y plays no part is the spec's choice
(log 8). -/
def Obligations.ShiftsInPlaceWithTheBitMovedOut : Prop :=
  ∀ (x y : Reg) (s : State),
    (∃ t, exec (.shr x y) s = .next t ∧ (x ≠ 15 → (t.reg x).toNat = (s.reg x).toNat / 2) ∧
      (t.reg 15).toNat = (s.reg x).toNat % 2 ∧
      (∀ r, r ≠ x → r ≠ 15 → t.reg r = s.reg r) ∧ t = { s with regs := t.regs, pc := s.pc + 2 }) ∧
    (∃ t, exec (.shl x y) s = .next t ∧ (x ≠ 15 → (t.reg x).toNat = (s.reg x).toNat * 2 % 256) ∧
      (t.reg 15).toNat = (s.reg x).toNat / 128 ∧
      (∀ r, r ≠ x → r ≠ 15 → t.reg r = s.reg r) ∧ t = { s with regs := t.regs, pc := s.pc + 2 })

/-- R165: with the random byte `rnd` given to DecodeExecute, `CXNN` leaves `rnd` AND NN in `reg[X]`, for every byte. -/
def Obligations.RandomByteUnderTheMask : Prop :=
  ∀ (x : Reg) (nn rnd : Byte) (s : State), ∃ t,
    perform (.decodeExecute (encodeWord (.rnd x nn)) rnd) s = (.ok, t) ∧
    (∀ k, k < 8 → (t.reg x).getLsbD k = (rnd.getLsbD k && nn.getLsbD k)) ∧
    (∀ r, r ≠ x → t.reg r = s.reg r) ∧ t = { s with regs := t.regs, pc := s.pc + 2 }

/-- R165, R166: in the machine's own step the byte is the next free one, whatever it is; one is drawn (log 2). -/
def Obligations.RandomInstructionDrawsOneFreeByte : Prop :=
  ∀ (x : Reg) (nn : Byte) (s : State), ∃ t, exec (.rnd x nn) s = .next t ∧
    t.reg x = s.nextRnd &&& nn ∧ (∀ r, r ≠ x → t.reg r = s.reg r) ∧ t.draws = s.draws + 1 ∧
    t = { s with regs := t.regs, pc := s.pc + 2, draws := t.draws }

/-! ## The index register and memory -/

/-- R181, R182: `ANNN` loads `index`, `FX1E` adds the register modulo 4096; neither writes a flag. -/
def Obligations.LoadIndexAndAddToIndex : Prop :=
  (∀ (nnn : BitVec 12) (s : State), ∃ t, exec (.ldI nnn) s = .next t ∧ t.index.toNat = nnn.toNat ∧
    t = { s with index := t.index, pc := s.pc + 2 }) ∧
  (∀ (x : Reg) (s : State), ∃ t, exec (.addIVx x) s = .next t ∧
    t.index.toNat = (s.index.toNat + (s.reg x).toNat) % 4096 ∧ t = { s with index := t.index, pc := s.pc + 2 })

/-- R183: `FX29` sets `index` to five times the whole byte; for a digit that is where Initialize put the digit's glyph. The
font's place and bytes and the unreduced byte are the spec's choices (logs 4, 5, 27). -/
def Obligations.FontAddressIsFiveTimesTheRegister : Prop :=
  ∀ (x : Reg) (s : State), ∃ t, exec (.ldFVx x) s = .next t ∧ t.index.toNat = 5 * (s.reg x).toNat ∧
    t = { s with index := t.index, pc := s.pc + 2 } ∧
    ((s.reg x).toNat < 16 → ∀ row, row < 5 →
      some (State.reset.byteAt (t.index.toNat + row)) = Config.fontData[5 * (s.reg x).toNat + row]?)

/-- R184: `FX33` stores the three decimal digits, hundreds first, and nothing else, or fails before it writes. The memory is in
canonical form, which every reachable state's is; nothing but reading the digits back needs it. -/
def Obligations.BcdStoresThreeDigits : Prop :=
  ∀ (x : Reg) (s : State),
    (s.index.toNat + 2 ≤ 4095 → ∃ t, exec (.ldBVx x) s = .next t ∧
      (s.mem.wf = true →
        (t.byteAt s.index.toNat).toNat = (s.reg x).toNat / 100 ∧
        (t.byteAt (s.index.toNat + 1)).toNat = (s.reg x).toNat / 10 % 10 ∧
        (t.byteAt (s.index.toNat + 2)).toNat = (s.reg x).toNat % 10) ∧
      (∀ a, a < s.index.toNat ∨ s.index.toNat + 2 < a → t.byteAt a = s.byteAt a) ∧
      t = { s with mem := t.mem, pc := s.pc + 2 }) ∧
    (4095 < s.index.toNat + 2 → exec (.ldBVx x) s = .fault (.memoryBoundsError s.index.toNat))

/-- R185: `FX55` stores `reg[0]` .. `reg[X]` from `index` up and nothing else, or fails before it writes. The memory is in
canonical form, which every reachable state's is; nothing but reading the bytes back needs it. -/
def Obligations.BlockStoreCopiesRegistersToMemory : Prop :=
  ∀ (x : Reg) (s : State),
    (s.index.toNat + x.val ≤ 4095 → ∃ t, exec (.ldMemVx x) s = .next t ∧
      (s.mem.wf = true → ∀ r : Reg, r ≤ x → t.byteAt (s.index.toNat + r.val) = s.reg r) ∧
      (∀ a, a < s.index.toNat ∨ s.index.toNat + x.val < a → t.byteAt a = s.byteAt a) ∧
      t = { s with mem := t.mem, pc := s.pc + 2 }) ∧
    (4095 < s.index.toNat + x.val → exec (.ldMemVx x) s = .fault (.memoryBoundsError s.index.toNat))

/-- R187: `FX65` loads `reg[0]` .. `reg[X]` from `index` up; the registers above X and the memory are unchanged; or it fails
before it writes. -/
def Obligations.BlockLoadCopiesMemoryToRegisters : Prop :=
  ∀ (x : Reg) (s : State),
    (s.index.toNat + x.val ≤ 4095 → ∃ t, exec (.ldVxMem x) s = .next t ∧
      (∀ r : Reg, t.reg r = if r ≤ x then s.byteAt (s.index.toNat + r.val) else s.reg r) ∧
      t = { s with regs := t.regs, pc := s.pc + 2 }) ∧
    (4095 < s.index.toNat + x.val → exec (.ldVxMem x) s = .fault (.memoryBoundsError s.index.toNat))

/-- R185, R187: registers stored by `FX55` come back with an `FX65` of the same X at the same `index`, whatever the registers
hold then. -/
def Obligations.BlockStoreThenLoadRestoresTheRegisters : Prop :=
  ∀ (x : Reg) (s t u : State), s.mem.wf = true → exec (.ldMemVx x) s = .next t → u.mem = t.mem → u.index = s.index →
    ∃ r, exec (.ldVxMem x) u = .next r ∧ ∀ q : Reg, q ≤ x → r.reg q = s.reg q

/-- R64: a byte written by `FX55`, `FX33` or LoadProgram is what the next Fetch reads at its address, as the high byte or as the
low one, and so the word of two neighbouring stored bytes is the word fetched: reg[k] and reg[k+1] for every such pair of `FX55`,
hundreds and tens, or tens and units, of `FX33`. That nothing stands between a store and a fetch is the spec's choice (log 29). The
memory is in canonical form, which every reachable state's is (log 23). -/
def Obligations.StoredCodeIsSeenByTheNextFetch : Prop :=
  ∀ (x : Reg) (s t : State), s.mem.wf = true →
    (exec (.ldMemVx x) s = .next t →
      (∀ k : Reg, k ≤ x → t.FetchSees (s.index.toNat + k.val) (s.reg k)) ∧
      (∀ k j : Reg, j.val = k.val + 1 → j ≤ x → t.pc.toNat = s.index.toNat + k.val →
        t.fetchWord = .ok (wordOfBytes (s.reg k) (s.reg j)))) ∧
    (exec (.ldBVx x) s = .next t →
      ∀ hundreds tens units : Byte, hundreds.toNat = (s.reg x).toNat / 100 → tens.toNat = (s.reg x).toNat / 10 % 10 →
        units.toNat = (s.reg x).toNat % 10 →
        t.FetchSees s.index.toNat hundreds ∧ t.FetchSees (s.index.toNat + 1) tens ∧ t.FetchSees (s.index.toNat + 2) units ∧
        (t.pc.toNat = s.index.toNat → t.fetchWord = .ok (wordOfBytes hundreds tens)) ∧
        (t.pc.toNat = s.index.toNat + 1 → t.fetchWord = .ok (wordOfBytes tens units))) ∧
    ∀ (bytes : List Byte) (i : Nat) (b : Byte), bytes.length ≤ 3584 → bytes[i]? = some b →
      (perform (.loadProgram bytes) s).2.FetchSees (0x200 + i) b

/-! ## The display -/

/-- R201: `00E0` clears every pixel, sets `redraw` and writes no flag. -/
def Obligations.ClearScreenBlanksEveryPixel : Prop :=
  ∀ s : State, ∃ t, exec .cls s = .next t ∧ (∀ x y, x < 64 → y < 32 → pixelAt t.disp x y = false) ∧ t.redraw = true ∧
    t = { s with disp := t.disp, redraw := t.redraw, pc := s.pc + 2 }

/-- R202, R204, R205, R207: the sprite engine's loops are one simultaneous XOR of the sprite, each pixel inside the display, and
the flag is 1 if and only if a set sprite bit lies on a pixel that was 1. Clipping is the spec's choice (R203, log 7), so is the
check of all N bytes first (log 13); N = 0 draws nothing (R206). -/
def Obligations.DrawIsOneSimultaneousXor : Prop :=
  ∀ (x y : Reg) (n : BitVec 4) (s : State), n.toNat = 0 ∨ s.index.toNat + n.toNat - 1 ≤ 4095 →
    ∃ t, exec (.drw x y n) s = .next t ∧
      (∀ px py, px < 64 → py < 32 → pixelAt t.disp px py =
        (pixelAt s.disp px py ^^ s.spriteCovers (s.reg x).toNat (s.reg y).toNat n.toNat px py)) ∧
      ((∃ px py, px < 64 ∧ py < 32 ∧ pixelAt s.disp px py = true ∧
          s.spriteCovers (s.reg x).toNat (s.reg y).toNat n.toNat px py = true) → t.reg 15 = 1) ∧
      ((¬ ∃ px py, px < 64 ∧ py < 32 ∧ pixelAt s.disp px py = true ∧
          s.spriteCovers (s.reg x).toNat (s.reg y).toNat n.toNat px py = true) → t.reg 15 = 0) ∧
      t.redraw = true ∧ (∀ r, r ≠ 15 → t.reg r = s.reg r) ∧
      t = { s with regs := t.regs, disp := t.disp, redraw := t.redraw, pc := s.pc + 2 }

/-- Drawing the same sprite again at the same place, with the same memory, puts the display back as it was before the first
draw (the document's draw property in 95_test_vectors.md S5, at every place and with clipping, log 7). -/
def Obligations.DrawingTwiceRestoresTheDisplay : Prop :=
  ∀ (x y : Reg) (n : BitVec 4) (s t u : State), exec (.drw x y n) s = .next t →
    u.disp = t.disp → u.mem = s.mem → u.index = s.index → u.reg x = s.reg x → u.reg y = s.reg y →
    ∃ r, exec (.drw x y n) u = .next r ∧ r.disp = s.disp

/-- R203: a sprite whose start is beyond the right or the bottom edge changes no pixel, collides with none, and still sets
`redraw` (R207). The start is not reduced modulo the display, the spec's choice (log 7). -/
def Obligations.SpriteStartedBeyondAnEdgeDrawsNothing : Prop :=
  ∀ (x y : Reg) (n : BitVec 4) (s : State), n.toNat = 0 ∨ s.index.toNat + n.toNat - 1 ≤ 4095 →
    64 ≤ (s.reg x).toNat ∨ 32 ≤ (s.reg y).toNat ∨ n.toNat = 0 →
    ∃ t, exec (.drw x y n) s = .next t ∧ t.disp = s.disp ∧ t.reg 15 = 0 ∧ t.redraw = true

/-- R202: a sprite whose rows do not all lie in the memory is `MemoryBoundsError(index)`, clipped rows counted (log 13). -/
def Obligations.SpriteBeyondMemoryIsABoundsError : Prop :=
  ∀ (x y : Reg) (n : BitVec 4) (s : State), 0 < n.toNat → 4095 < s.index.toNat + n.toNat - 1 →
    exec (.drw x y n) s = .fault (.memoryBoundsError s.index.toNat)

/-- R38: `redraw` is set by every `00E0` and `DXYN` that completes, cleared by TakeRedrawFlag and Initialize, written by nothing
else, and read by no instruction. -/
def Obligations.RedrawPendingIsSetByDrawingOnly : Prop :=
  (∀ (i : Instr) (s t : State), exec i s = .next t →
    match i with
    | .cls => t.redraw = true
    | .drw _ _ _ => t.redraw = true
    | _ => t.redraw = s.redraw) ∧
  (∀ s, (perform .takeRedrawFlag s).2.redraw = false ∧ (perform .initialise s).2.redraw = false) ∧
  (∀ (op : Operation) (s : State),
    match op with
    | .takeRedrawFlag | .initialise | .decodeExecute _ _ | .step _ => True
    | _ => (perform op s).2.redraw = s.redraw) ∧
  (∀ (i : Instr) (s : State) (b : Bool),
    match exec i s, exec i { s with redraw := b } with
    | .next t, .next u => u = { t with redraw := u.redraw }
    | .fault f, .fault g => f = g
    | _, _ => False)

/-! ## Timers and keys -/

/-- R221, R222, R223: `FX07` reads `dt`, `FX15` writes it, `FX18` writes `st`; none decrements a timer. -/
def Obligations.TimerRegistersAreReadAndWritten : Prop :=
  ∀ (x : Reg) (s : State),
    (∃ t, exec (.ldVxDt x) s = .next t ∧ t.reg x = s.dt ∧ (∀ r, r ≠ x → t.reg r = s.reg r) ∧
      t = { s with regs := t.regs, pc := s.pc + 2 }) ∧
    exec (.ldDtVx x) s = .next { s with dt := s.reg x, pc := s.pc + 2 } ∧
    exec (.ldStVx x) s = .next { s with st := s.reg x, pc := s.pc + 2 }

/-- R224 to R226: with no key down `FX0A` changes nothing and answers `waiting`; with keys down it stores the lowest number and
goes on. That it is the lowest is the spec's choice (log 12); a wait is a next state in the machine's step (log 3). -/
def Obligations.KeyWaitStoresTheLowestKeyOrChangesNothing : Prop :=
  ∀ (x : Reg) (rnd : Byte) (s : State),
    ((∀ k, s.keyDown k = false) → exec (.ldVxK x) s = .next s ∧
      perform (.decodeExecute (encodeWord (.ldVxK x)) rnd) s = (.waiting, s)) ∧
    (∀ k, s.keyDown k = true → (∀ j, j < k → s.keyDown j = false) →
      ∃ t, exec (.ldVxK x) s = .next t ∧ perform (.decodeExecute (encodeWord (.ldVxK x)) rnd) s = (.ok, t) ∧
        (t.reg x).toNat = k.val ∧ (∀ r, r ≠ x → t.reg r = s.reg r) ∧
        t = { s with regs := t.regs, pc := s.pc + 2 })

/-- R255: TickTimers takes 1 from each timer that is not 0, leaves a timer at 0 at 0, and touches nothing else. -/
def Obligations.TickTimersDecrementsNonzeroTimers : Prop :=
  ∀ s : State, ∃ t, perform .tickTimers s = (.ok, t) ∧ t.dt.toNat = s.dt.toNat - 1 ∧ t.st.toNat = s.st.toNat - 1 ∧
    t = { s with dt := t.dt, st := t.st }

/-- R256: TakeRedrawFlag returns the flag and clears it, so a second one returns 0. -/
def Obligations.TakeRedrawFlagReturnsAndClears : Prop :=
  ∀ s : State, ∃ t, perform .takeRedrawFlag s = (.flag s.redraw, t) ∧ t = { s with redraw := false } ∧
    perform .takeRedrawFlag t = (.flag false, t)

/-- R257, R261: SetKey writes one key; the snapshots return the display, the registers and `st` and change nothing. That the
index is four bits is the spec's choice (log 17). -/
def Obligations.SetKeyAndSnapshots : Prop :=
  ∀ (k : Key) (pressed : Bool) (s : State),
    (∃ t, perform (.setKey k pressed) s = (.ok, t) ∧ (∀ j, t.keyDown j = if j = k then pressed else s.keyDown j) ∧
      t = { s with keys := t.keys }) ∧
    perform .snapshotDisplay s = (.display s.disp, s) ∧ perform .snapshotRegisters s = (.registers s.regs, s) ∧
    perform .snapshotSoundTimer s = (.soundTimer s.st, s)

/-- R251: Initialize succeeds from every state and gives the reset state; the model's counter of draws goes on (log 2). -/
def Obligations.InitializeGivesTheResetState : Prop :=
  ∀ s : State, perform .initialise s = (.ok, { State.reset with draws := s.draws })

/-- R258: LoadProgram places byte i of a ROM of at most 3584 bytes at 0x200 + i and writes nothing else; a longer one is refused
and writes nothing. That the model has this operation is the spec's choice (log 17). -/
def Obligations.LoadProgramPlacesTheRomOrRefuses : Prop :=
  ∀ (bytes : List Byte) (s : State),
    (bytes.length ≤ 3584 → ∃ t, perform (.loadProgram bytes) s = (.ok, t) ∧
      (s.mem.wf = true → ∀ i, i < bytes.length → some (t.byteAt (0x200 + i)) = bytes[i]?) ∧
      (∀ a, a < 0x200 ∨ 0x200 + bytes.length ≤ a → t.byteAt a = s.byteAt a) ∧ t = { s with mem := t.mem }) ∧
    (3584 < bytes.length → perform (.loadProgram bytes) s = (.refused (.romTooLong bytes.length), s))

/-! ## Rules of the whole machine -/

/-- Every instruction completes exactly when no error condition of R241 holds, and otherwise raises the error that R241 gives it
and no other (R248); no instruction is refused. The error's payload is the spec's choice (log 25). -/
def Obligations.EveryInstructionCompletesOrRaisesItsError : Prop :=
  ∀ (i : Instr) (s : State),
    (errorOf i s = none → ∃ t, exec i s = .next t) ∧ (∀ f, errorOf i s = some f → exec i s = .fault f)

/-- The frame of every instruction: `pc` and the parts listed for the instruction may change (R43), and every other part, every
byte of memory, pixel, register, key, stack slot and scalar, reads as before. Of the stack, `2NNN` writes the slot at `sp` only
(R115, R116), and `00EE` writes no slot, which is the spec's choice (R26, log 20); of the memory, `FX33` and `FX55` write the bytes
from `index` up that R59, R184 and R185 name. That the move and logic instructions leave `reg[15]` and the block transfers `index` are
the spec's choices as well (logs 9, 10). -/
def Obligations.InstructionsWriteOnlyTheirParts : Prop :=
  ∀ (i : Instr) (s t : State) (c : Component), exec i s = .next t → c ≠ .pc → mayWrite i s c = false → c.Agrees s t

/-- R43, R250: the frame of the operations that run no instruction; LoadProgram's bytes are those of R258 (log 17). -/
def Obligations.HostOperationsWriteOnlyTheirParts : Prop :=
  ∀ (op : Operation) (s : State) (c : Component), op.mayWrite c = false → c.Agrees s (perform op s).2

/-- R246: an operation that returns an error leaves the state exactly as it was, for all four kinds, which is the spec's choice for
three of them (log 13). -/
def Obligations.ErrorsLeaveNoTrace : Prop :=
  ∀ (op : Operation) (s t : State) (f : Fault), perform op s = (.err f, t) → t = s

/-- R22, R43: an instruction depends on the registers it reads and on no other: with another value in a register it does not
read, it answers the same, but for that register's own value where the instruction does not write it. In particular no
instruction reads `reg[15]` unless it names it. That the shifts do not read `reg[Y]`, though R43 lists it for the whole family 8, is
the spec's choice (R91, R162, R164, log 8). -/
def Obligations.InstructionsDependOnlyOnTheRegistersTheyRead : Prop :=
  ∀ (i : Instr) (s : State) (r : Reg) (v : Byte), readsReg i r = false →
    match exec i s, exec i (s.setReg r v) with
    | .next t, .next u => u = { t with regs := u.regs } ∧ (∀ q, q ≠ r → u.reg q = t.reg q) ∧
        (u.reg r = t.reg r ∨ (u.reg r = v ∧ t.reg r = s.reg r))
    | .fault f, .fault g => f = g
    | _, _ => False

/-- R29: no instruction reads `st`: with another value there an instruction answers the same but for `st` itself, which only
`FX18` writes. -/
def Obligations.SoundTimerIsNeverReadByInstructions : Prop :=
  ∀ (i : Instr) (s : State) (v : Byte),
    match exec i s, exec i { s with st := v } with
    | .next t, .next u => u = { t with st := u.st } ∧
        (match i with | .ldStVx _ => u.st = t.st | _ => u.st = v ∧ t.st = s.st)
    | .fault f, .fault g => f = g
    | _, _ => False

/-- R270 a: in the quiescent loop, a `1NNN` to its own address at `pc`, every further Step leaves the state unchanged, for ever. -/
def Obligations.QuiescentLoopNeverChangesTheState : Prop :=
  ∀ (s : State), s.Quiescent → ∀ n : Nat, core.run n s = .next s ∧ runsSafely n s = true
end

