-- ==== Sys2Proof/Laws/Decode.lean ====
section
/-! SUPPORT. The fields of the three word forms, and a word and its two bytes (30_encoding.md R81, R82; 20_memory.md R55). -/

namespace Sys2Proof

variable (op : BitVec 4) (x y : Reg) (n : BitVec 4) (nn : Byte) (nnn : BitVec 12) (w : Word)

@[simp] theorem toFin_regBits : (regBits x).toFin = x := rfl
@[simp] theorem toNat_regBits : (regBits x).toNat = x.val := rfl

/-- A field that a decoder's case has fixed. -/
theorem eq_ofNat_of_toNat {v k : Nat} {b : BitVec v} (h : b.toNat = k) : b = BitVec.ofNat v k := by
  rw [← h, BitVec.ofNat_toNat, BitVec.setWidth_eq]

/-! ## The fields of a word that a form builds -/

@[simp] theorem fieldOp_formNNN : fieldOp (formNNN op nnn) = op := BitVec.extractLsb'_append_eq_left

@[simp] theorem fieldNNN_formNNN : fieldNNN (formNNN op nnn) = nnn := BitVec.extractLsb'_append_eq_right

@[simp] theorem fieldNN_formXNN : fieldNN (formXNN op x nn) = nn := BitVec.extractLsb'_append_eq_right

@[simp] theorem fieldOp_formXNN : fieldOp (formXNN op x nn) = op :=
  (BitVec.extractLsb'_append_eq_of_le (by omega)).trans BitVec.extractLsb'_append_eq_left

@[simp] theorem fieldX_formXNN : fieldX (formXNN op x nn) = x :=
  congrArg BitVec.toFin
    ((BitVec.extractLsb'_append_eq_of_le (by omega)).trans BitVec.extractLsb'_append_eq_right)

@[simp] theorem fieldOp_formXYN : fieldOp (formXYN op x y n) = op :=
  (BitVec.extractLsb'_append_eq_of_le (by omega)).trans BitVec.extractLsb'_append_eq_left

@[simp] theorem fieldX_formXYN : fieldX (formXYN op x y n) = x :=
  congrArg BitVec.toFin
    ((BitVec.extractLsb'_append_eq_of_le (by omega)).trans BitVec.extractLsb'_append_eq_right)

@[simp] theorem fieldY_formXYN : fieldY (formXYN op x y n) = y :=
  congrArg BitVec.toFin
    ((BitVec.extractLsb'_append_eq_of_add_le (by omega)).trans BitVec.extractLsb'_append_eq_left)

@[simp] theorem fieldN_formXYN : fieldN (formXYN op x y n) = n :=
  (BitVec.extractLsb'_append_eq_of_add_le (by omega)).trans BitVec.extractLsb'_append_eq_right

/-! ## A word is its fields -/

theorem formNNN_fields : formNNN (fieldOp w) (fieldNNN w) = w :=
  (BitVec.extractLsb'_append_extractLsb'_eq_extractLsb' (by omega)).trans (BitVec.extractLsb'_eq_self)

theorem formXNN_fields : formXNN (fieldOp w) (fieldX w) (fieldNN w) = w := by
  have h : fieldOp w ++ regBits (fieldX w) = w.extractLsb' 8 8 :=
    BitVec.extractLsb'_append_extractLsb'_eq_extractLsb' (by omega)
  unfold formXNN
  rw [h]
  exact (BitVec.extractLsb'_append_extractLsb'_eq_extractLsb' (by omega)).trans BitVec.extractLsb'_eq_self

theorem formXYN_fields : formXYN (fieldOp w) (fieldX w) (fieldY w) (fieldN w) = w := by
  have h : fieldOp w ++ regBits (fieldX w) = w.extractLsb' 8 8 :=
    BitVec.extractLsb'_append_extractLsb'_eq_extractLsb' (by omega)
  have h' : regBits (fieldY w) ++ fieldN w = w.extractLsb' 0 8 :=
    BitVec.extractLsb'_append_extractLsb'_eq_extractLsb' (by omega)
  unfold formXYN
  rw [h, h']
  exact (BitVec.extractLsb'_append_extractLsb'_eq_extractLsb' (by omega)).trans BitVec.extractLsb'_eq_self

/-! ## A word and its bytes -/

/-- The two bytes of a word, read back in memory order, are the word. -/
theorem wordOfBytes_bytesOfWord : wordOfBytes (w.extractLsb' 8 8) (w.extractLsb' 0 8) = w :=
  (BitVec.extractLsb'_append_extractLsb'_eq_extractLsb' (by omega)).trans BitVec.extractLsb'_eq_self

@[simp] theorem bytesOfWord_length : (bytesOfWord w).length = 2 := rfl

/-- The decoder on the two bytes of a word is the decoder on the word. -/
theorem decode_bytesOfWord (rest : List Byte) :
    decode (bytesOfWord w ++ rest) = (decodeWord w).map fun i => (i, rest) := by
  simp only [bytesOfWord, List.cons_append, List.nil_append, decode, wordOfBytes_bytesOfWord]

/-- A word as the host's table numbers it is the word. -/
theorem tableWord_toNat : tableWord 16 w.toNat = w := by
  rw [tableWord, Nat.mod_eq_of_lt w.isLt, BitVec.ofNat_toNat, BitVec.setWidth_eq]

/-- The decoder that the host asks is the decoder on the word. -/
theorem decodeTableWord_toNat : decodeTableWord 16 w.toNat = (decodeWord w).toOption := by
  have h := decode_bytesOfWord w []
  rw [List.append_nil] at h
  rw [decodeTableWord, tableWord_toNat, h]
  cases decodeWord w <;> rfl

end Sys2Proof
end

