-- ==== Sys2Proof/Laws/State.lean ====
section
/-! SUPPORT. One lemma per field per update of the state, so that no proof unfolds a record update. -/

namespace Sys2Proof.Machine.State

variable (s : State)

/-! ### setReg -/

@[simp] theorem setReg_mem (r : Reg) (v : Byte) : (s.setReg r v).mem = s.mem := rfl
@[simp] theorem setReg_regs (r : Reg) (v : Byte) : (s.setReg r v).regs = s.regs.set r.val v := rfl
@[simp] theorem setReg_index (r : Reg) (v : Byte) : (s.setReg r v).index = s.index := rfl
@[simp] theorem setReg_pc (r : Reg) (v : Byte) : (s.setReg r v).pc = s.pc := rfl
@[simp] theorem setReg_stack (r : Reg) (v : Byte) : (s.setReg r v).stack = s.stack := rfl
@[simp] theorem setReg_sp (r : Reg) (v : Byte) : (s.setReg r v).sp = s.sp := rfl
@[simp] theorem setReg_dt (r : Reg) (v : Byte) : (s.setReg r v).dt = s.dt := rfl
@[simp] theorem setReg_st (r : Reg) (v : Byte) : (s.setReg r v).st = s.st := rfl
@[simp] theorem setReg_keys (r : Reg) (v : Byte) : (s.setReg r v).keys = s.keys := rfl
@[simp] theorem setReg_disp (r : Reg) (v : Byte) : (s.setReg r v).disp = s.disp := rfl
@[simp] theorem setReg_redraw (r : Reg) (v : Byte) : (s.setReg r v).redraw = s.redraw := rfl
@[simp] theorem setReg_draws (r : Reg) (v : Byte) : (s.setReg r v).draws = s.draws := rfl

/-! ### setRegsFrom -/

@[simp] theorem setRegsFrom_mem (bytes : List Byte) : (s.setRegsFrom bytes).mem = s.mem := rfl
@[simp] theorem setRegsFrom_regs (bytes : List Byte) : (s.setRegsFrom bytes).regs = Vector.ofFn fun r : Fin 16 => bytes.getD r.val (s.reg r) := rfl
@[simp] theorem setRegsFrom_index (bytes : List Byte) : (s.setRegsFrom bytes).index = s.index := rfl
@[simp] theorem setRegsFrom_pc (bytes : List Byte) : (s.setRegsFrom bytes).pc = s.pc := rfl
@[simp] theorem setRegsFrom_stack (bytes : List Byte) : (s.setRegsFrom bytes).stack = s.stack := rfl
@[simp] theorem setRegsFrom_sp (bytes : List Byte) : (s.setRegsFrom bytes).sp = s.sp := rfl
@[simp] theorem setRegsFrom_dt (bytes : List Byte) : (s.setRegsFrom bytes).dt = s.dt := rfl
@[simp] theorem setRegsFrom_st (bytes : List Byte) : (s.setRegsFrom bytes).st = s.st := rfl
@[simp] theorem setRegsFrom_keys (bytes : List Byte) : (s.setRegsFrom bytes).keys = s.keys := rfl
@[simp] theorem setRegsFrom_disp (bytes : List Byte) : (s.setRegsFrom bytes).disp = s.disp := rfl
@[simp] theorem setRegsFrom_redraw (bytes : List Byte) : (s.setRegsFrom bytes).redraw = s.redraw := rfl
@[simp] theorem setRegsFrom_draws (bytes : List Byte) : (s.setRegsFrom bytes).draws = s.draws := rfl

/-! ### storeBytes -/

@[simp] theorem storeBytes_mem (a : Nat) (bytes : List Byte) : (s.storeBytes a bytes).mem = s.mem.writeBytes a bytes := rfl
@[simp] theorem storeBytes_regs (a : Nat) (bytes : List Byte) : (s.storeBytes a bytes).regs = s.regs := rfl
@[simp] theorem storeBytes_index (a : Nat) (bytes : List Byte) : (s.storeBytes a bytes).index = s.index := rfl
@[simp] theorem storeBytes_pc (a : Nat) (bytes : List Byte) : (s.storeBytes a bytes).pc = s.pc := rfl
@[simp] theorem storeBytes_stack (a : Nat) (bytes : List Byte) : (s.storeBytes a bytes).stack = s.stack := rfl
@[simp] theorem storeBytes_sp (a : Nat) (bytes : List Byte) : (s.storeBytes a bytes).sp = s.sp := rfl
@[simp] theorem storeBytes_dt (a : Nat) (bytes : List Byte) : (s.storeBytes a bytes).dt = s.dt := rfl
@[simp] theorem storeBytes_st (a : Nat) (bytes : List Byte) : (s.storeBytes a bytes).st = s.st := rfl
@[simp] theorem storeBytes_keys (a : Nat) (bytes : List Byte) : (s.storeBytes a bytes).keys = s.keys := rfl
@[simp] theorem storeBytes_disp (a : Nat) (bytes : List Byte) : (s.storeBytes a bytes).disp = s.disp := rfl
@[simp] theorem storeBytes_redraw (a : Nat) (bytes : List Byte) : (s.storeBytes a bytes).redraw = s.redraw := rfl
@[simp] theorem storeBytes_draws (a : Nat) (bytes : List Byte) : (s.storeBytes a bytes).draws = s.draws := rfl

/-! ### setIndex -/

@[simp] theorem setIndex_mem (v : Word) : (s.setIndex v).mem = s.mem := rfl
@[simp] theorem setIndex_regs (v : Word) : (s.setIndex v).regs = s.regs := rfl
@[simp] theorem setIndex_index (v : Word) : (s.setIndex v).index = v := rfl
@[simp] theorem setIndex_pc (v : Word) : (s.setIndex v).pc = s.pc := rfl
@[simp] theorem setIndex_stack (v : Word) : (s.setIndex v).stack = s.stack := rfl
@[simp] theorem setIndex_sp (v : Word) : (s.setIndex v).sp = s.sp := rfl
@[simp] theorem setIndex_dt (v : Word) : (s.setIndex v).dt = s.dt := rfl
@[simp] theorem setIndex_st (v : Word) : (s.setIndex v).st = s.st := rfl
@[simp] theorem setIndex_keys (v : Word) : (s.setIndex v).keys = s.keys := rfl
@[simp] theorem setIndex_disp (v : Word) : (s.setIndex v).disp = s.disp := rfl
@[simp] theorem setIndex_redraw (v : Word) : (s.setIndex v).redraw = s.redraw := rfl
@[simp] theorem setIndex_draws (v : Word) : (s.setIndex v).draws = s.draws := rfl

/-! ### setDt -/

@[simp] theorem setDt_mem (v : Byte) : (s.setDt v).mem = s.mem := rfl
@[simp] theorem setDt_regs (v : Byte) : (s.setDt v).regs = s.regs := rfl
@[simp] theorem setDt_index (v : Byte) : (s.setDt v).index = s.index := rfl
@[simp] theorem setDt_pc (v : Byte) : (s.setDt v).pc = s.pc := rfl
@[simp] theorem setDt_stack (v : Byte) : (s.setDt v).stack = s.stack := rfl
@[simp] theorem setDt_sp (v : Byte) : (s.setDt v).sp = s.sp := rfl
@[simp] theorem setDt_dt (v : Byte) : (s.setDt v).dt = v := rfl
@[simp] theorem setDt_st (v : Byte) : (s.setDt v).st = s.st := rfl
@[simp] theorem setDt_keys (v : Byte) : (s.setDt v).keys = s.keys := rfl
@[simp] theorem setDt_disp (v : Byte) : (s.setDt v).disp = s.disp := rfl
@[simp] theorem setDt_redraw (v : Byte) : (s.setDt v).redraw = s.redraw := rfl
@[simp] theorem setDt_draws (v : Byte) : (s.setDt v).draws = s.draws := rfl

/-! ### setSt -/

@[simp] theorem setSt_mem (v : Byte) : (s.setSt v).mem = s.mem := rfl
@[simp] theorem setSt_regs (v : Byte) : (s.setSt v).regs = s.regs := rfl
@[simp] theorem setSt_index (v : Byte) : (s.setSt v).index = s.index := rfl
@[simp] theorem setSt_pc (v : Byte) : (s.setSt v).pc = s.pc := rfl
@[simp] theorem setSt_stack (v : Byte) : (s.setSt v).stack = s.stack := rfl
@[simp] theorem setSt_sp (v : Byte) : (s.setSt v).sp = s.sp := rfl
@[simp] theorem setSt_dt (v : Byte) : (s.setSt v).dt = s.dt := rfl
@[simp] theorem setSt_st (v : Byte) : (s.setSt v).st = v := rfl
@[simp] theorem setSt_keys (v : Byte) : (s.setSt v).keys = s.keys := rfl
@[simp] theorem setSt_disp (v : Byte) : (s.setSt v).disp = s.disp := rfl
@[simp] theorem setSt_redraw (v : Byte) : (s.setSt v).redraw = s.redraw := rfl
@[simp] theorem setSt_draws (v : Byte) : (s.setSt v).draws = s.draws := rfl

/-! ### setPc -/

@[simp] theorem setPc_mem (v : Word) : (s.setPc v).mem = s.mem := rfl
@[simp] theorem setPc_regs (v : Word) : (s.setPc v).regs = s.regs := rfl
@[simp] theorem setPc_index (v : Word) : (s.setPc v).index = s.index := rfl
@[simp] theorem setPc_pc (v : Word) : (s.setPc v).pc = v := rfl
@[simp] theorem setPc_stack (v : Word) : (s.setPc v).stack = s.stack := rfl
@[simp] theorem setPc_sp (v : Word) : (s.setPc v).sp = s.sp := rfl
@[simp] theorem setPc_dt (v : Word) : (s.setPc v).dt = s.dt := rfl
@[simp] theorem setPc_st (v : Word) : (s.setPc v).st = s.st := rfl
@[simp] theorem setPc_keys (v : Word) : (s.setPc v).keys = s.keys := rfl
@[simp] theorem setPc_disp (v : Word) : (s.setPc v).disp = s.disp := rfl
@[simp] theorem setPc_redraw (v : Word) : (s.setPc v).redraw = s.redraw := rfl
@[simp] theorem setPc_draws (v : Word) : (s.setPc v).draws = s.draws := rfl

/-! ### advance -/

@[simp] theorem advance_mem (k : Word) : (s.advance k).mem = s.mem := rfl
@[simp] theorem advance_regs (k : Word) : (s.advance k).regs = s.regs := rfl
@[simp] theorem advance_index (k : Word) : (s.advance k).index = s.index := rfl
@[simp] theorem advance_pc (k : Word) : (s.advance k).pc = s.pc + k := rfl
@[simp] theorem advance_stack (k : Word) : (s.advance k).stack = s.stack := rfl
@[simp] theorem advance_sp (k : Word) : (s.advance k).sp = s.sp := rfl
@[simp] theorem advance_dt (k : Word) : (s.advance k).dt = s.dt := rfl
@[simp] theorem advance_st (k : Word) : (s.advance k).st = s.st := rfl
@[simp] theorem advance_keys (k : Word) : (s.advance k).keys = s.keys := rfl
@[simp] theorem advance_disp (k : Word) : (s.advance k).disp = s.disp := rfl
@[simp] theorem advance_redraw (k : Word) : (s.advance k).redraw = s.redraw := rfl
@[simp] theorem advance_draws (k : Word) : (s.advance k).draws = s.draws := rfl

/-! ### showDisplay -/

@[simp] theorem showDisplay_mem (d : Display) : (s.showDisplay d).mem = s.mem := rfl
@[simp] theorem showDisplay_regs (d : Display) : (s.showDisplay d).regs = s.regs := rfl
@[simp] theorem showDisplay_index (d : Display) : (s.showDisplay d).index = s.index := rfl
@[simp] theorem showDisplay_pc (d : Display) : (s.showDisplay d).pc = s.pc := rfl
@[simp] theorem showDisplay_stack (d : Display) : (s.showDisplay d).stack = s.stack := rfl
@[simp] theorem showDisplay_sp (d : Display) : (s.showDisplay d).sp = s.sp := rfl
@[simp] theorem showDisplay_dt (d : Display) : (s.showDisplay d).dt = s.dt := rfl
@[simp] theorem showDisplay_st (d : Display) : (s.showDisplay d).st = s.st := rfl
@[simp] theorem showDisplay_keys (d : Display) : (s.showDisplay d).keys = s.keys := rfl
@[simp] theorem showDisplay_disp (d : Display) : (s.showDisplay d).disp = d := rfl
@[simp] theorem showDisplay_redraw (d : Display) : (s.showDisplay d).redraw = true := rfl
@[simp] theorem showDisplay_draws (d : Display) : (s.showDisplay d).draws = s.draws := rfl

/-! ### drawn -/

@[simp] theorem drawn_mem : s.drawn.mem = s.mem := rfl
@[simp] theorem drawn_regs : s.drawn.regs = s.regs := rfl
@[simp] theorem drawn_index : s.drawn.index = s.index := rfl
@[simp] theorem drawn_pc : s.drawn.pc = s.pc := rfl
@[simp] theorem drawn_stack : s.drawn.stack = s.stack := rfl
@[simp] theorem drawn_sp : s.drawn.sp = s.sp := rfl
@[simp] theorem drawn_dt : s.drawn.dt = s.dt := rfl
@[simp] theorem drawn_st : s.drawn.st = s.st := rfl
@[simp] theorem drawn_keys : s.drawn.keys = s.keys := rfl
@[simp] theorem drawn_disp : s.drawn.disp = s.disp := rfl
@[simp] theorem drawn_redraw : s.drawn.redraw = s.redraw := rfl
@[simp] theorem drawn_draws : s.drawn.draws = s.draws + 1 := rfl

/-! ### ticked -/

@[simp] theorem ticked_mem : s.ticked.mem = s.mem := rfl
@[simp] theorem ticked_regs : s.ticked.regs = s.regs := rfl
@[simp] theorem ticked_index : s.ticked.index = s.index := rfl
@[simp] theorem ticked_pc : s.ticked.pc = s.pc := rfl
@[simp] theorem ticked_stack : s.ticked.stack = s.stack := rfl
@[simp] theorem ticked_sp : s.ticked.sp = s.sp := rfl
@[simp] theorem ticked_dt : s.ticked.dt = tick s.dt := rfl
@[simp] theorem ticked_st : s.ticked.st = tick s.st := rfl
@[simp] theorem ticked_keys : s.ticked.keys = s.keys := rfl
@[simp] theorem ticked_disp : s.ticked.disp = s.disp := rfl
@[simp] theorem ticked_redraw : s.ticked.redraw = s.redraw := rfl
@[simp] theorem ticked_draws : s.ticked.draws = s.draws := rfl

/-! ### redrawTaken -/

@[simp] theorem redrawTaken_mem : s.redrawTaken.mem = s.mem := rfl
@[simp] theorem redrawTaken_regs : s.redrawTaken.regs = s.regs := rfl
@[simp] theorem redrawTaken_index : s.redrawTaken.index = s.index := rfl
@[simp] theorem redrawTaken_pc : s.redrawTaken.pc = s.pc := rfl
@[simp] theorem redrawTaken_stack : s.redrawTaken.stack = s.stack := rfl
@[simp] theorem redrawTaken_sp : s.redrawTaken.sp = s.sp := rfl
@[simp] theorem redrawTaken_dt : s.redrawTaken.dt = s.dt := rfl
@[simp] theorem redrawTaken_st : s.redrawTaken.st = s.st := rfl
@[simp] theorem redrawTaken_keys : s.redrawTaken.keys = s.keys := rfl
@[simp] theorem redrawTaken_disp : s.redrawTaken.disp = s.disp := rfl
@[simp] theorem redrawTaken_redraw : s.redrawTaken.redraw = false := rfl
@[simp] theorem redrawTaken_draws : s.redrawTaken.draws = s.draws := rfl

/-! ### withKey -/

@[simp] theorem withKey_mem (k : Key) (p : Bool) : (s.withKey k p).mem = s.mem := rfl
@[simp] theorem withKey_regs (k : Key) (p : Bool) : (s.withKey k p).regs = s.regs := rfl
@[simp] theorem withKey_index (k : Key) (p : Bool) : (s.withKey k p).index = s.index := rfl
@[simp] theorem withKey_pc (k : Key) (p : Bool) : (s.withKey k p).pc = s.pc := rfl
@[simp] theorem withKey_stack (k : Key) (p : Bool) : (s.withKey k p).stack = s.stack := rfl
@[simp] theorem withKey_sp (k : Key) (p : Bool) : (s.withKey k p).sp = s.sp := rfl
@[simp] theorem withKey_dt (k : Key) (p : Bool) : (s.withKey k p).dt = s.dt := rfl
@[simp] theorem withKey_st (k : Key) (p : Bool) : (s.withKey k p).st = s.st := rfl
@[simp] theorem withKey_keys (k : Key) (p : Bool) : (s.withKey k p).keys = s.keys.set k.val p := rfl
@[simp] theorem withKey_disp (k : Key) (p : Bool) : (s.withKey k p).disp = s.disp := rfl
@[simp] theorem withKey_redraw (k : Key) (p : Bool) : (s.withKey k p).redraw = s.redraw := rfl
@[simp] theorem withKey_draws (k : Key) (p : Bool) : (s.withKey k p).draws = s.draws := rfl

end Sys2Proof.Machine.State
end

