-- ==== Sys2Proof/Laws/Memory.lean ====
section
/-! SUPPORT. Memory: a read after a write, every other address, and the canonical form, which every memory operation keeps
(20_memory.md R50, R53, R54, R59). -/

namespace Sys2Proof.Machine

/-! ## One byte -/

/-- Unlisted, an address reads as the font's byte or 0, the font standing at address 0 (R32, R41). -/
theorem Memory.unlisted_eq (a : Nat) : Memory.unlisted a = Config.fontData.getD a 0 := by
  unfold Memory.unlisted
  exact if_pos (Nat.zero_le a)

/-- Above the font an unlisted address reads as 0. -/
theorem Memory.unlisted_above {a : Nat} (h : 0x50 ≤ a) : Memory.unlisted a = 0 := by
  rw [Memory.unlisted_eq, List.getD_eq_getElem?_getD, List.getElem?_eq_none (by simpa [Config.fontData] using h)]
  rfl

/-- An address below every listed one reads as unlisted. -/
theorem Memory.read_of_wfFrom {m : Memory} {lo a : Nat} (h : Memory.wfFrom lo m = true) (ha : a < lo) :
    Memory.read m a = Memory.unlisted a := by
  induction m generalizing lo with
  | nil => rfl
  | cons c m ih =>
    obtain ⟨b, v⟩ := c
    simp only [Memory.wfFrom, Bool.and_eq_true, decide_eq_true_eq] at h
    obtain ⟨⟨⟨h1, -⟩, -⟩, h4⟩ := h
    simp only [Memory.read]
    rw [if_neg (by omega)]
    exact ih h4 (by omega)

theorem Memory.wfFrom_mono {m : Memory} {lo lo' : Nat} (h : Memory.wfFrom lo' m = true) (hl : lo ≤ lo') :
    Memory.wfFrom lo m = true := by
  cases m with
  | nil => rfl
  | cons c m =>
    obtain ⟨b, v⟩ := c
    simp only [Memory.wfFrom, Bool.and_eq_true, decide_eq_true_eq] at h ⊢
    exact ⟨⟨⟨by omega, h.1.1.2⟩, h.1.2⟩, h.2⟩

/-- A write leaves every other address alone, in any memory. -/
theorem Memory.read_write_ne (m : Memory) {a b : Nat} (v : Byte) (h : b ≠ a) :
    Memory.read (Memory.write m a v) b = Memory.read m b := by
  induction m with
  | nil =>
    simp only [Memory.write]
    split
    · rfl
    · simp [Memory.read, Ne.symm h]
  | cons c m ih =>
    obtain ⟨d, w⟩ := c
    simp only [Memory.write]
    split
    · split
      · rfl
      · simp [Memory.read, Ne.symm h]
    · split
      · rename_i heq
        subst heq
        split <;> simp [Memory.read, Ne.symm h]
      · simp only [Memory.read, ih]

/-- A byte written is the byte read, in a memory in canonical form. -/
theorem Memory.read_write_from {m : Memory} {lo : Nat} (hm : Memory.wfFrom lo m = true) (a : Nat) (v : Byte) :
    Memory.read (Memory.write m a v) a = v := by
  induction m generalizing lo with
  | nil =>
    simp only [Memory.write]
    split <;> simp_all [Memory.read]
  | cons c m ih =>
    obtain ⟨d, w⟩ := c
    have h4 : Memory.wfFrom (d + 1) m = true := by
      simp only [Memory.wfFrom, Bool.and_eq_true] at hm; exact hm.2
    simp only [Memory.write]
    split
    · rename_i hlt
      split
      · rename_i hv
        simp only [Memory.read]
        rw [if_neg (by omega), Memory.read_of_wfFrom h4 (by omega), hv]
      · simp [Memory.read]
    · split
      · rename_i heq
        subst heq
        split
        · rename_i hv
          rw [Memory.read_of_wfFrom h4 (by omega), hv]
        · simp [Memory.read]
      · rename_i hne
        simp only [Memory.read]
        rw [if_neg (by omega)]
        exact ih h4

theorem Memory.read_write_eq {m : Memory} (hm : m.wf = true) (a : Nat) (v : Byte) :
    Memory.read (Memory.write m a v) a = v := Memory.read_write_from hm a v

theorem Memory.wfFrom_write {m : Memory} {lo a : Nat} (v : Byte) (hm : Memory.wfFrom lo m = true) (hl : lo ≤ a)
    (ha : a < Config.memSize) : Memory.wfFrom lo (Memory.write m a v) = true := by
  induction m generalizing lo with
  | nil =>
    simp only [Memory.write]
    split <;> simp_all [Memory.wfFrom]
  | cons c m ih =>
    obtain ⟨d, w⟩ := c
    simp only [Memory.wfFrom, Bool.and_eq_true, decide_eq_true_eq, bne_iff_ne, ne_eq] at hm
    obtain ⟨⟨⟨h1, h2⟩, h3⟩, h4⟩ := hm
    simp only [Memory.write]
    split
    · split
      · simp [Memory.wfFrom, *]
      · simp [Memory.wfFrom, *]
    · split
      · rename_i heq
        subst heq
        split
        · exact Memory.wfFrom_mono h4 (by omega)
        · simp [Memory.wfFrom, *]
      · simp [Memory.wfFrom, *]
        exact ih h4 (by omega)

/-- A write inside the memory keeps the canonical form. -/
theorem Memory.wf_write {m : Memory} {a : Nat} (v : Byte) (hm : m.wf = true) (ha : a < Config.memSize) :
    (Memory.write m a v).wf = true := Memory.wfFrom_write v hm (Nat.zero_le a) ha

/-! ## Several bytes -/

/-- Bytes outside the stored range read as before, in any memory. -/
theorem Memory.read_writeBytes_outside (m : Memory) {a b : Nat} (bs : List Byte)
    (h : b < a ∨ a + bs.length ≤ b) : Memory.read (m.writeBytes a bs) b = Memory.read m b := by
  induction bs generalizing m a with
  | nil => rfl
  | cons v bs ih =>
    simp only [List.length_cons] at h
    rw [Memory.writeBytes, ih _ (by omega), Memory.read_write_ne _ _ (by omega)]

/-- The store of a range inside the memory keeps the canonical form. -/
theorem Memory.wf_writeBytes {m : Memory} {a : Nat} (bs : List Byte) (hm : m.wf = true)
    (h : a + bs.length ≤ Config.memSize) : (m.writeBytes a bs).wf = true := by
  induction bs generalizing m a with
  | nil => exact hm
  | cons v bs ih =>
    simp only [List.length_cons] at h
    exact ih (Memory.wf_write v hm (by omega)) (by omega)

/-- The stored bytes read back, in a memory in canonical form. -/
theorem Memory.read_writeBytes_inside {m : Memory} {a : Nat} (bs : List Byte) (hm : m.wf = true)
    (h : a + bs.length ≤ Config.memSize) (i : Nat) (hi : i < bs.length) :
    Memory.read (m.writeBytes a bs) (a + i) = bs[i] := by
  induction bs generalizing m a i with
  | nil => simp at hi
  | cons v bs ih =>
    simp only [List.length_cons] at h hi
    rw [Memory.writeBytes]
    cases i with
    | zero => rw [Memory.read_writeBytes_outside _ _ (by omega)]; exact Memory.read_write_eq hm a v
    | succ i =>
      have := ih (m := m.write a v) (a := a + 1) (Memory.wf_write v hm (by omega)) (by omega) i (by omega)
      rw [show a + (i + 1) = a + 1 + i by omega, this]; rfl

/-! ## The checked range operations -/

theorem inBounds_iff {base n : Nat} : inBounds base n = true ↔ n = 0 ∨ base + n ≤ Config.memSize := by
  simp [inBounds]

/-- The range check answers the result or the error that names the range's first address, and nothing else (R53, R54). -/
theorem checkBounds_cases {α : Type} (base n : Nat) (v : α) :
    (inBounds base n = true ∧ checkBounds base n v = .ok v) ∨
    (inBounds base n = false ∧ checkBounds base n v = .error (.memoryBoundsError base)) := by
  unfold checkBounds
  cases inBounds base n <;> simp

namespace State

variable (s : State)

@[simp] theorem byteAt_setReg (r : Reg) (v : Byte) (a : Nat) : (s.setReg r v).byteAt a = s.byteAt a := rfl
@[simp] theorem byteAt_setRegsFrom (bs : List Byte) (a : Nat) : (s.setRegsFrom bs).byteAt a = s.byteAt a := rfl
@[simp] theorem byteAt_setIndex (v : Word) (a : Nat) : (s.setIndex v).byteAt a = s.byteAt a := rfl
@[simp] theorem byteAt_setDt (v : Byte) (a : Nat) : (s.setDt v).byteAt a = s.byteAt a := rfl
@[simp] theorem byteAt_setSt (v : Byte) (a : Nat) : (s.setSt v).byteAt a = s.byteAt a := rfl
@[simp] theorem byteAt_setPc (v : Word) (a : Nat) : (s.setPc v).byteAt a = s.byteAt a := rfl
@[simp] theorem byteAt_advance (k : Word) (a : Nat) : (s.advance k).byteAt a = s.byteAt a := rfl
@[simp] theorem byteAt_showDisplay (d : Display) (a : Nat) : (s.showDisplay d).byteAt a = s.byteAt a := rfl
@[simp] theorem byteAt_drawn (a : Nat) : s.drawn.byteAt a = s.byteAt a := rfl

/-- A store leaves every byte outside its range alone. -/
theorem byteAt_storeBytes_outside {a b : Nat} (bs : List Byte) (h : b < a ∨ a + bs.length ≤ b) :
    (s.storeBytes a bs).byteAt b = s.byteAt b := Memory.read_writeBytes_outside _ _ h

/-- A store inside a memory in canonical form is read back. -/
theorem byteAt_storeBytes_inside {a : Nat} (bs : List Byte) (hm : s.mem.wf = true)
    (h : a + bs.length ≤ Config.memSize) (i : Nat) (hi : i < bs.length) :
    (s.storeBytes a bs).byteAt (a + i) = bs[i] := Memory.read_writeBytes_inside bs hm h i hi

/-- Fetch reads `pc` and `pc` + 1 or fails with `pc` (R52). -/
theorem fetchWord_cases :
    (s.pc.toNat + 2 ≤ Config.memSize ∧
      s.fetchWord = .ok (wordOfBytes (s.byteAt s.pc.toNat) (s.byteAt (s.pc.toNat + 1)))) ∨
    (Config.memSize < s.pc.toNat + 2 ∧ s.fetchWord = .error (.memoryBoundsError s.pc.toNat)) := by
  unfold State.fetchWord State.memReadWord
  rcases checkBounds_cases s.pc.toNat 2 (wordOfBytes (s.byteAt s.pc.toNat) (s.byteAt (s.pc.toNat + 1)))
    with ⟨h, e⟩ | ⟨h, e⟩
  · exact .inl ⟨by simpa using (inBounds_iff.mp h), e⟩
  · refine .inr ⟨?_, e⟩
    have : ¬ (2 = 0 ∨ s.pc.toNat + 2 ≤ Config.memSize) := fun c => by
      rw [inBounds_iff.mpr c] at h; cases h
    omega

end State

end Sys2Proof.Machine
end

