-- ==== Sys2Proof/Laws/Registers.lean ====
section
/-! SUPPORT. What the register operations do, one lemma each: the write of one register, the load of several, the flag and
the result with the flag (10_state.md R21, R22; 42_load_alu.md R155). -/

namespace Sys2Proof.Machine.State

variable (s : State)

theorem ext_regs {v w : Vector Byte 16} (h : ∀ r : Reg, v[r.val] = w[r.val]) : v = w :=
  Vector.ext fun i hi => h ⟨i, hi⟩

/-- A register that any update but the three register writes leaves alone. -/
@[simp] theorem reg_mk (m v ix p k sp d t ks di rd dr) (r : Reg) :
    State.reg ⟨m, v, ix, p, k, sp, d, t, ks, di, rd, dr⟩ r = v[r.val] := rfl

@[simp] theorem reg_setIndex (v : Word) (r : Reg) : (s.setIndex v).reg r = s.reg r := rfl
@[simp] theorem reg_setDt (v : Byte) (r : Reg) : (s.setDt v).reg r = s.reg r := rfl
@[simp] theorem reg_setSt (v : Byte) (r : Reg) : (s.setSt v).reg r = s.reg r := rfl
@[simp] theorem reg_setPc (v : Word) (r : Reg) : (s.setPc v).reg r = s.reg r := rfl
@[simp] theorem reg_advance (k : Word) (r : Reg) : (s.advance k).reg r = s.reg r := rfl
@[simp] theorem reg_showDisplay (d : Display) (r : Reg) : (s.showDisplay d).reg r = s.reg r := rfl
@[simp] theorem reg_storeBytes (a : Nat) (bs : List Byte) (r : Reg) : (s.storeBytes a bs).reg r = s.reg r := rfl
@[simp] theorem reg_drawn (r : Reg) : s.drawn.reg r = s.reg r := rfl

/-- The one write of a register: that register, and no other (R21: none is hardwired). -/
@[simp] theorem reg_setReg (r q : Reg) (v : Byte) : (s.setReg r v).reg q = if q = r then v else s.reg q := by
  by_cases h : q = r
  · subst h; simp [State.reg, State.setReg]
  · have : r.val ≠ q.val := fun e => h (Fin.ext e.symm)
    simp [State.reg, State.setReg, this, h]

/-- The load of `reg[0]` up: a register receives its byte where there is one (R187). -/
@[simp] theorem reg_setRegsFrom (bytes : List Byte) (q : Reg) :
    (s.setRegsFrom bytes).reg q = bytes.getD q.val (s.reg q) := by
  simp [State.reg, State.setRegsFrom]

theorem setFlag_eq (f : Bool) : s.setFlag f = s.setReg 15 (flagByte f) := rfl

/-- The flag is what remains when the destination is the flag register (R155). -/
theorem reg_writeResultAndFlag (x q : Reg) (v : Byte) (f : Bool) :
    (s.writeResultAndFlag x v f).reg q = if q = 15 then flagByte f else if q = x then v else s.reg q := by
  simp [State.writeResultAndFlag, setFlag_eq]

/-- A flag-writing ALU instruction changes the registers and `pc` and nothing else. -/
theorem writeResultAndFlag_eq (x : Reg) (v : Byte) (f : Bool) :
    s.writeResultAndFlag x v f =
      { s with regs := (s.writeResultAndFlag x v f).regs, pc := s.pc + 2 } := rfl

theorem flagByte_cases (f : Bool) : flagByte f = 0 ∨ flagByte f = 1 := by cases f <;> simp [flagByte]

/-- The stored registers, in ascending order (R185). -/
theorem regsUpTo_length (x : Reg) : (s.regsUpTo x).length = x.val + 1 := by
  have := x.isLt
  simp [State.regsUpTo]

theorem regsUpTo_getElem (x : Reg) (i : Nat) (h : i < (s.regsUpTo x).length) :
    (s.regsUpTo x)[i] = s.reg ⟨i, by have := x.isLt; rw [regsUpTo_length] at h; omega⟩ := by
  simp [State.regsUpTo, State.reg]

end Sys2Proof.Machine.State
end

