-- ==== Sys2Proof/Laws/Stack.lean ====
section
/-! SUPPORT. What a push and a pop do, each said once (40_control_flow.md R115). -/

namespace Sys2Proof.Machine.State

variable {s t : State}

/-- Everything a push that succeeds does. -/
theorem push_ok_iff {v : Word} :
    s.push v = .ok t ↔ ∃ h : s.sp.val < 16,
      t = { s with stack := s.stack.set s.sp.val v h, sp := ⟨s.sp.val + 1, Nat.succ_lt_succ h⟩ } := by
  unfold State.push
  by_cases h : s.sp.val < Config.stackDepth
  · rw [dif_pos h]
    exact ⟨fun e => ⟨h, (Except.ok.inj e).symm⟩, fun ⟨_, e⟩ => congrArg _ e.symm⟩
  · rw [dif_neg h]
    exact ⟨fun e => (by cases e), fun ⟨h', _⟩ => absurd h' h⟩

/-- A push on a full stack is the error `StackOverflow` with `sp`, which is 16. -/
theorem push_full {v : Word} (h : s.sp.val = 16) : s.push v = .error (.stackOverflow 16) := by
  have : ¬ s.sp.val < Config.stackDepth := by simp [h, Config.stackDepth]
  rw [State.push, dif_neg this, h]

/-- What a push leaves in the stack: the word at the old `sp`, every other slot as it was. -/
theorem push_stack {v : Word} (h : s.push v = .ok t) (k : Nat) (hk : k < 16) :
    t.stack[k] = if k = s.sp.val then v else s.stack[k] := by
  obtain ⟨hs, rfl⟩ := push_ok_iff.mp h
  simp [Vector.getElem_set, eq_comm]

theorem push_sp {v : Word} (h : s.push v = .ok t) : t.sp.val = s.sp.val + 1 := by
  obtain ⟨hs, rfl⟩ := push_ok_iff.mp h
  rfl

/-- Everything a pop that succeeds does: the slot below `sp` comes off and keeps its value. -/
theorem pop_ok_iff {w : Word} :
    s.pop = .ok (w, t) ↔ ∃ (_ : s.sp.val ≠ 0) (h' : s.sp.val - 1 < 16),
      w = s.stack[s.sp.val - 1] ∧ t = { s with sp := ⟨s.sp.val - 1, Nat.lt_succ_of_lt h'⟩ } := by
  unfold State.pop
  by_cases h : s.sp.val = 0
  · rw [dif_pos h]
    exact ⟨fun e => (by cases e), fun ⟨h', _⟩ => absurd h h'⟩
  · rw [dif_neg h]
    exact ⟨fun e => ⟨h, by omega, (Prod.mk.inj (Except.ok.inj e)).1.symm, (Prod.mk.inj (Except.ok.inj e)).2.symm⟩,
      fun ⟨_, _, e1, e2⟩ => by rw [e1, e2]⟩

/-- A pop of an empty stack is the error `StackUnderflow` with `sp`, which is 0. -/
theorem pop_empty (h : s.sp.val = 0) : s.pop = .error (.stackUnderflow 0) := by
  rw [State.pop, dif_pos h, h]

theorem pop_some (h : s.sp.val ≠ 0) : ∃ w t, s.pop = .ok (w, t) := by
  unfold State.pop
  rw [dif_neg h]
  exact ⟨_, _, rfl⟩

/-- What is pushed is what the next pop takes off, and `sp` is back. -/
theorem pop_push {v : Word} (h : s.push v = .ok t) : ∃ u, t.pop = .ok (v, u) ∧ u = { t with sp := s.sp } := by
  obtain ⟨hs, rfl⟩ := push_ok_iff.mp h
  refine ⟨_, pop_ok_iff.mpr ⟨Nat.succ_ne_zero _, ?_, ?_, rfl⟩, rfl⟩
  · simpa using hs
  · simp

end Sys2Proof.Machine.State
end

