-- ==== Sys2Proof/Laws/Frame.lean ====
section
/-! SUPPORT. The frame of every state update, one lemma each: a part that the update does not name reads as before
(10_state.md R43). The frame of an instruction is a chain of them. -/

namespace Sys2Proof.Machine.Component

variable {c : Component} {s t u : State}

theorem Agrees.refl (c : Component) (s : State) : c.Agrees s s := by cases c <;> exact Eq.refl _

theorem Agrees.trans (h : c.Agrees s t) (h' : c.Agrees t u) : c.Agrees s u := by
  cases c <;> exact Eq.trans h' h

theorem agrees_setReg {r : Reg} (v : Byte) (h : c ≠ .reg r) : c.Agrees s (s.setReg r v) := by
  cases c
  case reg q => exact (s.reg_setReg r q v).trans (if_neg fun e : q = r => h (congrArg Component.reg e))
  all_goals exact Eq.refl _

theorem agrees_setFlag (f : Bool) (h : c ≠ .reg 15) : c.Agrees s (s.setFlag f) := agrees_setReg _ h

/-- A change of registers only, which leaves the register `c` alone if `c` is one. -/
theorem agrees_withRegs (v : Vector Byte 16) (h : ∀ r : Reg, c = .reg r → v[r.val] = s.regs[r.val]) :
    c.Agrees s { s with regs := v } := by
  cases c
  case reg q => exact h q (Eq.refl _)
  all_goals exact Eq.refl _

theorem agrees_setRegsFrom (bytes : List Byte) (h : ∀ r : Reg, c = .reg r → bytes.length ≤ r.val) :
    c.Agrees s (s.setRegsFrom bytes) :=
  agrees_withRegs _ fun r e => by
    rw [Vector.getElem_ofFn]
    simp only [List.getD_eq_getElem?_getD, List.getElem?_eq_none (h r e), Option.getD_none]
    exact Eq.refl _

theorem agrees_storeBytes (a : Nat) (bytes : List Byte) (h : c.isByteIn a bytes.length = false) :
    c.Agrees s (s.storeBytes a bytes) := by
  cases c
  case byte b =>
    refine s.byteAt_storeBytes_outside bytes ?_
    simp only [isByteIn, Bool.and_eq_false_iff, decide_eq_false_iff_not] at h
    omega
  all_goals exact Eq.refl _

theorem agrees_setIndex (v : Word) (h : c ≠ .index) : c.Agrees s (s.setIndex v) := by
  cases c <;> first | exact Eq.refl _ | exact absurd rfl h

theorem agrees_setDt (v : Byte) (h : c ≠ .dt) : c.Agrees s (s.setDt v) := by
  cases c <;> first | exact Eq.refl _ | exact absurd rfl h

theorem agrees_setSt (v : Byte) (h : c ≠ .st) : c.Agrees s (s.setSt v) := by
  cases c <;> first | exact Eq.refl _ | exact absurd rfl h

theorem agrees_setPc (v : Word) (h : c ≠ .pc) : c.Agrees s (s.setPc v) := by
  cases c <;> first | exact Eq.refl _ | exact absurd rfl h

theorem agrees_advance (k : Word) (h : c ≠ .pc) : c.Agrees s (s.advance k) := by
  cases c <;> first | exact Eq.refl _ | exact absurd rfl h

theorem agrees_skipIf (b : Bool) (h : c ≠ .pc) : c.Agrees s (s.skipIf b) := agrees_advance _ h

theorem agrees_showDisplay (d : Display) (h : c.isPixel = false) (h' : c ≠ .redraw) :
    c.Agrees s (s.showDisplay d) := by
  cases c <;> first | exact Eq.refl _ | exact absurd rfl h' | cases h

theorem agrees_drawn (h : c ≠ .draws) : c.Agrees s s.drawn := by
  cases c <;> first | exact Eq.refl _ | exact absurd rfl h

theorem agrees_push {v : Word} (hp : s.push v = .ok t) (h : c ≠ .sp) (h' : c.isSlot s.sp.val = false) :
    c.Agrees s t := by
  have hs := State.push_stack hp
  obtain ⟨hlt, rfl⟩ := State.push_ok_iff.mp hp
  cases c
  case slot k => exact (hs k.val k.isLt).trans (if_neg (by simpa [isSlot] using h'))
  case sp => exact absurd rfl h
  all_goals exact Eq.refl _

theorem agrees_pop {w : Word} (hp : s.pop = .ok (w, t)) (h : c ≠ .sp) : c.Agrees s t := by
  obtain ⟨_, _, -, rfl⟩ := State.pop_ok_iff.mp hp
  cases c
  case sp => exact absurd rfl h
  all_goals exact Eq.refl _

theorem agrees_writeResultAndFlag {x : Reg} (v : Byte) (f : Bool) (h : c ≠ .reg x) (h15 : c ≠ .reg 15) (hpc : c ≠ .pc) :
    c.Agrees s (s.writeResultAndFlag x v f) :=
  ((agrees_setReg v h).trans (agrees_setFlag f h15)).trans (agrees_advance 2 hpc)

end Sys2Proof.Machine.Component
end

