-- ==== Sys2Proof/Laws/HostOps.lean ====
section
/-! SUPPORT. The operations of the host (60_exceptions.md R250 to R262), the small lemmas: which instruction reads the random
byte, what a tick does to one timer, and how a schedule is cut in two. -/

namespace Sys2Proof.Machine

/-- Only `CXNN` reads the random byte (R166). -/
theorem execWithRnd_eq {i : Instr} (h : ∀ x nn, i ≠ .rnd x nn) (rnd : Byte) (s : State) :
    execWithRnd rnd i s = exec i s := by
  cases i <;> first | rfl | exact absurd rfl (h _ _)

/-- A tick is a subtraction that stops at 0 (R255). -/
theorem toNat_tick (t : Byte) : (tick t).toNat = t.toNat - 1 := by
  revert t; decide

theorem runOps_append (ops more : List Operation) (s : State) :
    runOps (ops ++ more) s = runOps more (runOps ops s) := by
  induction ops generalizing s with
  | nil => rfl
  | cons op ops ih => exact ih _

end Sys2Proof.Machine
end

