-- ==== Sys2Proof/Laws/Operands.lean ====
section
/-! SUPPORT. The operand forms as numbers, one lemma each (30_encoding.md R86, 10_state.md R24, 43_index_memory.md R182, R183),
and when a key is the lowest pressed one (45_timers_keys.md R225). -/

namespace Sys2Proof.Machine

@[simp] theorem toNat_addressOf (nnn : BitVec 12) : (addressOf nnn).toNat = nnn.toNat := by
  simp only [addressOf, BitVec.toNat_setWidth]; omega

@[simp] theorem toNat_wide (b : Byte) : (wide b).toNat = b.toNat := by
  simp only [wide, BitVec.toNat_setWidth]; omega

/-- The mask is the remainder modulo 4096. -/
@[simp] theorem toNat_mask12 (w : Word) : (mask12 w).toNat = w.toNat % 4096 := by
  rw [mask12, Config.addrMask, BitVec.toNat_and]
  exact Nat.and_two_pow_sub_one_eq_mod w.toNat 12

theorem toNat_jumpV0Target (s : State) (nnn : BitVec 12) :
    (s.jumpV0Target nnn).toNat = (nnn.toNat + (s.reg 0).toNat) % 4096 := by
  simp [State.jumpV0Target]

theorem toNat_indexPlus (s : State) (x : Reg) :
    (s.indexPlus x).toNat = (s.index.toNat + (s.reg x).toNat) % 4096 := by
  simp [State.indexPlus]

/-- No pressed key, no lowest one. -/
theorem State.lowestKey_eq_none {s : State} : s.lowestKey = none ↔ ∀ k, s.keyDown k = false := by
  simp [State.lowestKey]

/-- A pressed key with none below it is the lowest. -/
theorem State.lowestKey_eq_some {s : State} {k : Key} (h : s.keyDown k = true)
    (below : ∀ j, j < k → s.keyDown j = false) : s.lowestKey = some k := by
  rw [State.lowestKey, List.find?_eq_some_iff_getElem]
  refine ⟨h, k.val, by simp, by simp, fun j hj => ?_⟩
  have := below ⟨j, by omega⟩ hj
  simp [this]

end Sys2Proof.Machine
end

