-- ==== Sys2Proof/Laws/PerInstr.lean ====
section
/-! SUPPORT. The laws said of every instruction, one lemma per constructor. The family `EncodesInItsRow`: the encoder, written
from the `encoding` column of the table, gives a word that exactly one row of the opcode map selects, the instruction's own
(30_encoding.md R84: "no word matches two rows"). -/

namespace Sys2Proof.Laws.EncodesInItsRow

/-- Exactly one row of the opcode map selects the word of the instruction, and it has the instruction's mnemonic. -/
def Statement (i : Instr) : Prop :=
  (opcodeMap.filter (·.selects (encodeWord i))).map (·.mnemonic) = [i.mnemonic]

/-! ## A row looks at the top four bits and the low byte only -/

theorem word_eq_iff (v w : Word) :
    v = w ↔ fieldOp v = fieldOp w ∧ v.extractLsb' 8 4 = w.extractLsb' 8 4 ∧ fieldNN v = fieldNN w := by
  constructor
  · rintro rfl
    exact ⟨rfl, rfl, rfl⟩
  · rintro ⟨h1, h2, h3⟩
    rw [← formXNN_fields v, ← formXNN_fields w, h1, h3, fieldX, fieldX, h2]

theorem selects_parts (r : OpcodeRow) (w : Word) :
    r.selects w = (fieldOp w &&& fieldOp r.mask == fieldOp r.bits &&
      (w.extractLsb' 8 4 &&& r.mask.extractLsb' 8 4 == r.bits.extractLsb' 8 4 &&
        fieldNN w &&& fieldNN r.mask == fieldNN r.bits)) := by
  rw [OpcodeRow.selects, Bool.eq_iff_iff]
  simp only [beq_iff_eq, Bool.and_eq_true, word_eq_iff (w &&& r.mask), fieldOp, fieldNN, BitVec.extractLsb'_and]

/-- The row selects every word with these top bits and this low byte, unless it is one of family 0. -/
def keyMatches (op : BitVec 4) (nn : Byte) (r : OpcodeRow) : Bool :=
  op == fieldOp r.bits && nn &&& fieldNN r.mask == fieldNN r.bits

/-- Every row fixes the top four bits, and only the rows of family 0 fix the bits of X. -/
theorem rows_fix_op_not_X : ∀ r ∈ opcodeMap, fieldOp r.mask = 0xF ∧
    ((r.mask.extractLsb' 8 4 = 0 ∧ r.bits.extractLsb' 8 4 = 0) ∨ fieldOp r.bits = 0) := by decide

theorem and_all_ones (op : BitVec 4) : op &&& 0xF = op := by decide +revert

theorem row_of_key {w : Word} {name : String} (h : fieldOp w ≠ 0)
    (hk : (opcodeMap.filter (keyMatches (fieldOp w) (fieldNN w))).map (·.mnemonic) = [name]) :
    (opcodeMap.filter (·.selects w)).map (·.mnemonic) = [name] := by
  rw [← hk]
  congr 1
  apply List.filter_congr
  intro r hr
  obtain ⟨h1, h2⟩ := rows_fix_op_not_X r hr
  rw [selects_parts, keyMatches, h1, and_all_ones]
  rcases h2 with ⟨h2, h3⟩ | h2
  · simp [h2, h3]
  · have : (fieldOp w == fieldOp r.bits) = false := by rw [h2]; simpa using h
    simp [this]

variable {op : BitVec 4} {x y : Reg} {n : BitVec 4} {nn : Byte} {nnn : BitVec 12} {name : String}

theorem row_of_formXNN (h : op ≠ 0) (hk : (opcodeMap.filter (keyMatches op nn)).map (·.mnemonic) = [name]) :
    (opcodeMap.filter (·.selects (formXNN op x nn))).map (·.mnemonic) = [name] :=
  row_of_key (by rwa [fieldOp_formXNN]) (by rwa [fieldOp_formXNN, fieldNN_formXNN])

theorem row_of_formXYN (h : op ≠ 0)
    (hk : (opcodeMap.filter (keyMatches op (regBits y ++ n))).map (·.mnemonic) = [name]) :
    (opcodeMap.filter (·.selects (formXYN op x y n))).map (·.mnemonic) = [name] :=
  have low : fieldNN (formXYN op x y n) = regBits y ++ n := BitVec.extractLsb'_append_eq_right
  row_of_key (by rwa [fieldOp_formXYN]) (by rwa [fieldOp_formXYN, low])

theorem row_of_formNNN (h : op ≠ 0)
    (hk : ∀ nn : Byte, (opcodeMap.filter (keyMatches op nn)).map (·.mnemonic) = [name]) :
    (opcodeMap.filter (·.selects (formNNN op nnn))).map (·.mnemonic) = [name] :=
  row_of_key (by rwa [fieldOp_formNNN]) (by rw [fieldOp_formNNN]; exact hk _)

/-! ## One lemma per instruction -/

theorem cls : Statement .cls := by unfold Statement; decide
theorem ret : Statement .ret := by unfold Statement; decide
theorem jp (nnn : BitVec 12) : Statement (.jp nnn) := row_of_formNNN (by decide) (by simp only [Instr.mnemonic]; decide)
theorem call (nnn : BitVec 12) : Statement (.call nnn) := row_of_formNNN (by decide) (by simp only [Instr.mnemonic]; decide)
theorem seImm (x : Reg) (nn : Byte) : Statement (.seImm x nn) := row_of_formXNN (by decide) (by decide +revert)
theorem sneImm (x : Reg) (nn : Byte) : Statement (.sneImm x nn) := row_of_formXNN (by decide) (by decide +revert)
theorem seReg (x y : Reg) : Statement (.seReg x y) := row_of_formXYN (by decide) (by decide +revert)
theorem ldImm (x : Reg) (nn : Byte) : Statement (.ldImm x nn) := row_of_formXNN (by decide) (by decide +revert)
theorem addImm (x : Reg) (nn : Byte) : Statement (.addImm x nn) := row_of_formXNN (by decide) (by decide +revert)
theorem ldReg (x y : Reg) : Statement (.ldReg x y) := row_of_formXYN (by decide) (by decide +revert)
theorem orReg (x y : Reg) : Statement (.orReg x y) := row_of_formXYN (by decide) (by decide +revert)
theorem andReg (x y : Reg) : Statement (.andReg x y) := row_of_formXYN (by decide) (by decide +revert)
theorem xorReg (x y : Reg) : Statement (.xorReg x y) := row_of_formXYN (by decide) (by decide +revert)
theorem addReg (x y : Reg) : Statement (.addReg x y) := row_of_formXYN (by decide) (by decide +revert)
theorem sub (x y : Reg) : Statement (.sub x y) := row_of_formXYN (by decide) (by decide +revert)
theorem shr (x y : Reg) : Statement (.shr x y) := row_of_formXYN (by decide) (by decide +revert)
theorem subn (x y : Reg) : Statement (.subn x y) := row_of_formXYN (by decide) (by decide +revert)
theorem shl (x y : Reg) : Statement (.shl x y) := row_of_formXYN (by decide) (by decide +revert)
theorem sneReg (x y : Reg) : Statement (.sneReg x y) := row_of_formXYN (by decide) (by decide +revert)
theorem ldI (nnn : BitVec 12) : Statement (.ldI nnn) := row_of_formNNN (by decide) (by simp only [Instr.mnemonic]; decide)
theorem jpV0 (nnn : BitVec 12) : Statement (.jpV0 nnn) := row_of_formNNN (by decide) (by simp only [Instr.mnemonic]; decide)
theorem rnd (x : Reg) (nn : Byte) : Statement (.rnd x nn) := row_of_formXNN (by decide) (by decide +revert)
theorem drw (x y : Reg) (n : BitVec 4) : Statement (.drw x y n) := row_of_formXYN (by decide) (by decide +revert)
theorem skp (x : Reg) : Statement (.skp x) := row_of_formXNN (by decide) (by simp only [Instr.mnemonic]; decide)
theorem sknp (x : Reg) : Statement (.sknp x) := row_of_formXNN (by decide) (by simp only [Instr.mnemonic]; decide)
theorem ldVxDt (x : Reg) : Statement (.ldVxDt x) := row_of_formXNN (by decide) (by simp only [Instr.mnemonic]; decide)
theorem ldVxK (x : Reg) : Statement (.ldVxK x) := row_of_formXNN (by decide) (by simp only [Instr.mnemonic]; decide)
theorem ldDtVx (x : Reg) : Statement (.ldDtVx x) := row_of_formXNN (by decide) (by simp only [Instr.mnemonic]; decide)
theorem ldStVx (x : Reg) : Statement (.ldStVx x) := row_of_formXNN (by decide) (by simp only [Instr.mnemonic]; decide)
theorem addIVx (x : Reg) : Statement (.addIVx x) := row_of_formXNN (by decide) (by simp only [Instr.mnemonic]; decide)
theorem ldFVx (x : Reg) : Statement (.ldFVx x) := row_of_formXNN (by decide) (by simp only [Instr.mnemonic]; decide)
theorem ldBVx (x : Reg) : Statement (.ldBVx x) := row_of_formXNN (by decide) (by simp only [Instr.mnemonic]; decide)
theorem ldMemVx (x : Reg) : Statement (.ldMemVx x) := row_of_formXNN (by decide) (by simp only [Instr.mnemonic]; decide)
theorem ldVxMem (x : Reg) : Statement (.ldVxMem x) := row_of_formXNN (by decide) (by simp only [Instr.mnemonic]; decide)

end Sys2Proof.Laws.EncodesInItsRow
end

