-- ==== Sys2Proof/Laws/Screen.lean ====
section
/-! SUPPORT. What the sprite engine's loops do, pixel by pixel: each display pixel is XORed with the sprite's bit over it, and the
collision is some set bit over a pixel that was 1 (44_display.md R202, R203, R205). -/

namespace Sys2Proof.Machine

/-- Two positions of the display are the same flat position only if they are the same pixel (R34). -/
theorem flat_inj {x y px py : Nat} (hx : x < 64) (hp : px < 64) :
    px + 64 * py = x + 64 * y ↔ px = x ∧ py = y := by omega

/-- Toggling one pixel of the display. -/
theorem pixelAt_togglePixel (d : Display) {x y px py : Nat} (hx : x < 64) (hp : px < 64) (hy : py < 32) :
    pixelAt (togglePixel d px py) x y = (pixelAt d x y ^^ decide (px = x ∧ py = y)) := by
  have h : px + 64 * py < 2048 := by omega
  simp only [pixelAt, togglePixel, Config.dispWidth, BitVec.getLsbD_xor, BitVec.getLsbD_twoPow, h,
    decide_true, Bool.true_and, flat_inj hx hp]

/-- One sprite bit: a pixel of the display. -/
theorem pixelAt_blitPixel (b : Display × Bool) {x y : Nat} (px py : Nat) (hx : x < 64) (hy : y < 32) :
    pixelAt (blitPixel b px py).1 x y = (pixelAt b.1 x y ^^ decide (px = x ∧ py = y)) := by
  unfold blitPixel
  split
  · rename_i h
    exact pixelAt_togglePixel b.1 hx h.1 h.2
  · rename_i h
    have : ¬ (px = x ∧ py = y) := fun e => h ⟨by simpa [Config.dispWidth, e.1], by simpa [Config.dispHeight, e.2]⟩
    simp [this]

/-- One sprite bit: the collision so far. -/
theorem blitPixel_collision (b : Display × Bool) (px py : Nat) :
    (blitPixel b px py).2 = (b.2 || decide (px < 64 ∧ py < 32) && pixelAt b.1 px py) := by
  unfold blitPixel Config.dispWidth Config.dispHeight
  split <;> simp_all

/-- Some columns of one row, none twice: a pixel of the display. -/
theorem pixelAt_blitCols (x0 py : Nat) (row : Byte) (cols : List Nat) (hc : cols.Nodup) (b : Display × Bool)
    {x y : Nat} (hx : x < 64) (hy : y < 32) :
    pixelAt (cols.foldl (fun b col => if row.getLsbD (7 - col) then blitPixel b (x0 + col) py else b) b).1 x y =
      (pixelAt b.1 x y ^^ decide (∃ c ∈ cols, row.getLsbD (7 - c) = true ∧ x0 + c = x ∧ py = y)) := by
  induction cols generalizing b with
  | nil => simp
  | cons c cs ih =>
    obtain ⟨hn, hcs⟩ := List.nodup_cons.mp hc
    rw [List.foldl_cons, ih hcs]
    by_cases hrow : row.getLsbD (7 - c) = true
    · rw [if_pos hrow, pixelAt_blitPixel b _ _ hx hy]
      by_cases he : x0 + c = x ∧ py = y
      · have hno : ¬ ∃ c' ∈ cs, row.getLsbD (7 - c') = true ∧ x0 + c' = x ∧ py = y := by
          rintro ⟨c', hm, -, h1, -⟩
          have : c' = c := by omega
          exact hn (this ▸ hm)
        have hyes : ∃ c' ∈ c :: cs, row.getLsbD (7 - c') = true ∧ x0 + c' = x ∧ py = y :=
          ⟨c, List.mem_cons_self, hrow, he⟩
        rw [decide_eq_false hno, decide_eq_true hyes, decide_eq_true he, Bool.xor_false]
      · simp [he, hrow]
    · simp [hrow]

/-- Some columns of one row, none twice: the collision so far. -/
theorem blitCols_collision (x0 py : Nat) (row : Byte) (cols : List Nat) (hc : cols.Nodup) (b : Display × Bool) :
    (cols.foldl (fun b col => if row.getLsbD (7 - col) then blitPixel b (x0 + col) py else b) b).2 =
      (b.2 || decide (∃ c ∈ cols, row.getLsbD (7 - c) = true ∧ (x0 + c < 64 ∧ py < 32) ∧
        pixelAt b.1 (x0 + c) py = true)) := by
  induction cols generalizing b with
  | nil => simp
  | cons c cs ih =>
    obtain ⟨hn, hcs⟩ := List.nodup_cons.mp hc
    rw [List.foldl_cons, ih hcs]
    by_cases hrow : row.getLsbD (7 - c) = true
    · rw [if_pos hrow, blitPixel_collision]
      have same : ∀ c' ∈ cs, (x0 + c' < 64 ∧ py < 32) →
          pixelAt (blitPixel b (x0 + c) py).1 (x0 + c') py = pixelAt b.1 (x0 + c') py := by
        intro c' hm hr
        have hne : c ≠ c' := fun e => hn (e ▸ hm)
        rw [pixelAt_blitPixel b _ _ hr.1 hr.2]
        simp [hne]
      have : (∃ c' ∈ cs, row.getLsbD (7 - c') = true ∧ (x0 + c' < 64 ∧ py < 32) ∧
            pixelAt (blitPixel b (x0 + c) py).1 (x0 + c') py = true) ↔
          (∃ c' ∈ cs, row.getLsbD (7 - c') = true ∧ (x0 + c' < 64 ∧ py < 32) ∧
            pixelAt b.1 (x0 + c') py = true) := by
        constructor
        · rintro ⟨c', hm, h1, h2, h3⟩
          exact ⟨c', hm, h1, h2, (same c' hm h2) ▸ h3⟩
        · rintro ⟨c', hm, h1, h2, h3⟩
          exact ⟨c', hm, h1, h2, (same c' hm h2).symm ▸ h3⟩
      simp only [this]
      simp [hrow, Bool.or_assoc]
    · simp [hrow]

/-- The rows, drawn from column `x0` and row `y0`, have a set bit over the pixel (R205). -/
def rowsCover (rows : List Byte) (x0 y0 px py : Nat) : Bool :=
  x0 ≤ px && px < x0 + 8 && y0 ≤ py && py < y0 + rows.length && (rows.getD (py - y0) 0).getLsbD (7 - (px - x0))

theorem rowsCover_cons {row : Byte} {rows : List Byte} {x0 y0 px py : Nat} :
    rowsCover (row :: rows) x0 y0 px py =
      (decide (∃ c ∈ List.range 8, row.getLsbD (7 - c) = true ∧ x0 + c = px ∧ y0 = py) ||
        rowsCover rows x0 (y0 + 1) px py) := by
  rw [Bool.eq_iff_iff]
  simp only [rowsCover, Bool.and_eq_true, Bool.or_eq_true, decide_eq_true_eq, List.mem_range, List.length_cons]
  constructor
  · rintro ⟨⟨⟨⟨h1, h2⟩, h3⟩, h4⟩, h5⟩
    rcases Nat.eq_or_lt_of_le h3 with rfl | h
    · exact .inl ⟨px - x0, by omega, by simpa using h5, by omega, rfl⟩
    · refine .inr ⟨⟨⟨⟨h1, h2⟩, by omega⟩, by omega⟩, ?_⟩
      rw [show py - y0 = (py - (y0 + 1)) + 1 by omega, List.getD_cons_succ] at h5
      exact h5
  · rintro (⟨c, hc, h1, h2, h3⟩ | ⟨⟨⟨⟨h1, h2⟩, h3⟩, h4⟩, h5⟩)
    · subst h2 h3
      refine ⟨⟨⟨⟨by omega, by omega⟩, by omega⟩, by omega⟩, ?_⟩
      simpa using h1
    · refine ⟨⟨⟨⟨h1, h2⟩, by omega⟩, by omega⟩, ?_⟩
      rw [show py - y0 = (py - (y0 + 1)) + 1 by omega, List.getD_cons_succ]
      exact h5

/-- The whole draw: each pixel of the display is XORed with the sprite's bit over it. -/
theorem pixelAt_blitRows (x0 : Nat) (rows : List Byte) (y0 : Nat) (b : Display × Bool) {x y : Nat} (hx : x < 64)
    (hy : y < 32) :
    pixelAt (blitRows b x0 y0 rows).1 x y = (pixelAt b.1 x y ^^ rowsCover rows x0 y0 x y) := by
  induction rows generalizing y0 b with
  | nil => simp [blitRows, rowsCover]
  | cons row rows ih =>
    rw [blitRows, ih, blitRow, pixelAt_blitCols _ _ _ _ List.nodup_range _ hx hy, rowsCover_cons, Bool.xor_assoc]
    congr 1
    by_cases h : y0 = y
    · have : rowsCover rows x0 (y0 + 1) x y = false := by simp [rowsCover]; omega
      simp [this]
    · simp [h]

/-- The whole draw: the collision is some set bit over a pixel of the display that was 1 before the draw. -/
theorem blitRows_collision (x0 : Nat) (rows : List Byte) (y0 : Nat) (b : Display × Bool) :
    (blitRows b x0 y0 rows).2 = true ↔
      b.2 = true ∨ ∃ px py, px < 64 ∧ py < 32 ∧ rowsCover rows x0 y0 px py = true ∧ pixelAt b.1 px py = true := by
  induction rows generalizing y0 b with
  | nil => simp [blitRows, rowsCover]
  | cons row rows ih =>
    rw [blitRows, ih, blitRow, blitCols_collision _ _ _ _ List.nodup_range]
    have same : ∀ px py, px < 64 → py < 32 → rowsCover rows x0 (y0 + 1) px py = true →
        pixelAt (blitRow b x0 y0 row).1 px py = pixelAt b.1 px py := by
      intro px py hx hy hc
      rw [blitRow, pixelAt_blitCols _ _ _ _ List.nodup_range _ hx hy]
      have : ¬ y0 = py := by
        simp only [rowsCover, Bool.and_eq_true, decide_eq_true_eq] at hc
        omega
      simp [this]
    simp only [Bool.or_eq_true, decide_eq_true_eq, rowsCover_cons, or_assoc]
    refine or_congr_right ?_
    constructor
    · rintro (⟨c, hm, h1, h2, h3⟩ | ⟨px, py, hx, hy, hc, hp⟩)
      · exact ⟨x0 + c, y0, h2.1, h2.2, .inl ⟨c, hm, h1, rfl, rfl⟩, h3⟩
      · exact ⟨px, py, hx, hy, .inr hc, (same px py hx hy hc) ▸ hp⟩
    · rintro ⟨px, py, hx, hy, ⟨c, hm, h1, h2, h3⟩ | hc, hp⟩
      · subst h2 h3
        exact .inl ⟨c, hm, h1, ⟨hx, hy⟩, hp⟩
      · exact .inr ⟨px, py, hx, hy, hc, (same px py hx hy hc).symm ▸ hp⟩

end Sys2Proof.Machine
end

