-- ==== Sys2Proof/Laws/Step.lean ====
section
/-! SUPPORT. What a step can do, said once: how an outcome comes from an operation that may fail, and the three cases of the
machine's step (60_exceptions.md R246, R254). -/

namespace Sys2Proof.Machine

/-- A next state comes from an operation that succeeded, and is its state. -/
theorem outcomeOf_map_next {α : Type} {r : Except Fault α} {f : α → State} {t : State} :
    outcomeOf (r.map f) = .next t ↔ ∃ a, r = .ok a ∧ f a = t := by
  cases r <;> simp [outcomeOf, Except.map]

/-- A fault comes from an operation that failed, and is its error. -/
theorem outcomeOf_map_fault {α : Type} {r : Except Fault α} {f : α → State} {e : Fault} :
    outcomeOf (r.map f) = .fault e ↔ r = .error e := by
  cases r <;> simp [outcomeOf, Except.map]

theorem outcomeOf_not_refused {r : Except Fault State} {q : Refusal} : outcomeOf r ≠ .refused q := by
  cases r <;> simp [outcomeOf]

/-- The decoder refuses a word only as an unknown opcode, with the word (R83, R88). -/
theorem decodeWord_error {w : Word} {e : DecodeError} (h : decodeWord w = .error e) : e = .unknownOpcode w := by
  unfold decodeWord decodeFamily0 decodeFamily8 decodeFamilyE decodeFamilyF at h
  split at h <;> (try split at h) <;> (try split at h) <;> first | (cases h; rfl) | cases h

/-- The three things a step can do: the fetch fails, the word is unknown, or its instruction runs (R254). -/
theorem step_cases (s : State) :
    (∃ f, s.fetchWord = .error f ∧ step s = .fault f) ∨
    (∃ w, s.fetchWord = .ok w ∧ decodeWord w = .error (.unknownOpcode w) ∧ step s = .fault (.unknownOpcode w)) ∨
    (∃ w i, s.fetchWord = .ok w ∧ decodeWord w = .ok i ∧ step s = exec i s) := by
  cases hf : s.fetchWord with
  | error f => exact .inl ⟨f, rfl, by simp [step, hf]⟩
  | ok w =>
    cases hd : decodeWord w with
    | error e =>
      obtain rfl := decodeWord_error hd
      exact .inr (.inl ⟨w, rfl, hd, by simp [step, hf, hd]⟩)
    | ok i => exact .inr (.inr ⟨w, i, rfl, hd, by simp [step, hf, hd]⟩)

/-- A step that answers a next state ran the instruction at `pc`. -/
theorem step_next {s t : State} (h : step s = .next t) :
    ∃ w i, s.fetchWord = .ok w ∧ decodeWord w = .ok i ∧ exec i s = .next t := by
  rcases step_cases s with ⟨f, -, e⟩ | ⟨w, -, -, e⟩ | ⟨w, i, hf, hd, e⟩
  · rw [e] at h; cases h
  · rw [e] at h; cases h
  · exact ⟨w, i, hf, hd, e ▸ h⟩

end Sys2Proof.Machine
end

