-- ==== Sys2Proof/Tests/Slice0.lean ====
section
/-! SUPPORT. The model's own tests. Expected values come from spec/95_test_vectors.md (the id stands beside each test: S1 to S8
are the document's, T<n> are the spec's own) and from the encodings of spec/opcode_table.json, written out bit by bit. After
them, for every obligation with hypotheses, a state and operands that meet them, at the boundary values of each clause. -/

open Sys2Proof Sys2Proof.Machine

namespace Sys2Proof.Tests

/-! ## Helpers -/

/-- DecodeExecute of the word is done, not waiting, and the state after it has the property. -/
def done (w : Word) (s : State) (p : State → Bool) : Bool :=
  match perform (.decodeExecute w 0) s with
  | (.ok, t) => p t
  | _ => false

/-- The operation answers the error and the state is as before. -/
def errs (op : Operation) (s : State) (f : Fault) : Bool := perform op s == (.err f, s)

/-- The word is refused by the check of WellFormed and by the decoder, with the word itself. -/
def unknown (w : Word) : Bool :=
  !wordWellFormed w &&
    match decodeWord w with
    | .error e => e == .unknownOpcode w
    | .ok _ => false

/-- The reset state with some registers set. -/
def withRegs (rs : List (Reg × Byte)) : State := rs.foldl (fun s r => s.setReg r.1 r.2) State.reset

/-- The reset state with `index` set and bytes stored from there up. -/
def withData (a : Nat) (bytes : List Byte) : State := (State.reset.setIndex (BitVec.ofNat 16 a)).storeBytes a bytes

/-- The reset state with the word at `pc`. -/
def ready (w : Word) : State := State.reset.placeAtPc w

/-- The reset state with return addresses on the stack. -/
def withStack (ws : List Word) : State :=
  match pushAll ws State.reset with
  | .ok s => s
  | .error _ => State.reset

/-- The pixels that are lit are the listed ones (all different) and no others. -/
def lit (d : Display) (ps : List (Nat × Nat)) : Bool :=
  d == ps.foldl (fun d p => togglePixel d p.1 p.2) 0

/-! ## Decoding: every constructor, from the word's bits -/

theorem test_decode_family_0 :
    decodeWord 0b0000_0000_1110_0000 = .ok .cls ∧ decodeWord 0b0000_0000_1110_1110 = .ok .ret := ⟨rfl, rfl⟩

theorem test_decode_families_1_2 :
    decodeWord 0b0001_1010_1011_1100 = .ok (.jp 0xABC) ∧ decodeWord 0b0010_0001_0010_0011 = .ok (.call 0x123) := ⟨rfl, rfl⟩

theorem test_decode_families_3_4 :
    decodeWord 0b0011_1010_0001_0010 = .ok (.seImm 0xA 0x12) ∧ decodeWord 0b0100_0101_1110_0111 = .ok (.sneImm 5 0xE7) :=
  ⟨rfl, rfl⟩

theorem test_decode_families_5_9 :
    decodeWord 0b0101_0001_0010_0000 = .ok (.seReg 1 2) ∧ decodeWord 0b1001_1110_0011_0000 = .ok (.sneReg 0xE 3) := ⟨rfl, rfl⟩

theorem test_decode_families_6_7 :
    decodeWord 0b0110_1111_0000_0111 = .ok (.ldImm 0xF 7) ∧ decodeWord 0b0111_0011_1000_0001 = .ok (.addImm 3 0x81) := ⟨rfl, rfl⟩

theorem test_decode_family_8_moves :
    decodeWord 0b1000_0100_1001_0000 = .ok (.ldReg 4 9) ∧ decodeWord 0b1000_0100_1001_0001 = .ok (.orReg 4 9) ∧
    decodeWord 0b1000_0100_1001_0010 = .ok (.andReg 4 9) ∧ decodeWord 0b1000_0100_1001_0011 = .ok (.xorReg 4 9) :=
  ⟨rfl, rfl, rfl, rfl⟩

theorem test_decode_family_8_flag_writers :
    decodeWord 0b1000_0001_1101_0100 = .ok (.addReg 1 0xD) ∧ decodeWord 0b1000_0001_1101_0101 = .ok (.sub 1 0xD) ∧
    decodeWord 0b1000_0001_1101_0110 = .ok (.shr 1 0xD) ∧ decodeWord 0b1000_0001_1101_0111 = .ok (.subn 1 0xD) ∧
    decodeWord 0b1000_0001_1101_1110 = .ok (.shl 1 0xD) := ⟨rfl, rfl, rfl, rfl, rfl⟩

theorem test_decode_families_A_to_D :
    decodeWord 0b1010_0011_0100_0101 = .ok (.ldI 0x345) ∧ decodeWord 0b1011_1100_0101_0110 = .ok (.jpV0 0xC56) ∧
    decodeWord 0b1100_0011_0000_1111 = .ok (.rnd 3 0x0F) ∧ decodeWord 0b1101_0001_0010_1111 = .ok (.drw 1 2 0xF) :=
  ⟨rfl, rfl, rfl, rfl⟩

theorem test_decode_family_E :
    decodeWord 0b1110_0011_1001_1110 = .ok (.skp 3) ∧ decodeWord 0b1110_1100_1010_0001 = .ok (.sknp 0xC) := ⟨rfl, rfl⟩

theorem test_decode_family_F_registers :
    decodeWord 0b1111_0101_0000_0111 = .ok (.ldVxDt 5) ∧ decodeWord 0b1111_0110_0000_1010 = .ok (.ldVxK 6) ∧
    decodeWord 0b1111_0111_0001_0101 = .ok (.ldDtVx 7) ∧ decodeWord 0b1111_1000_0001_1000 = .ok (.ldStVx 8) ∧
    decodeWord 0b1111_1001_0001_1110 = .ok (.addIVx 9) := ⟨rfl, rfl, rfl, rfl, rfl⟩

theorem test_decode_family_F_memory :
    decodeWord 0b1111_1010_0010_1001 = .ok (.ldFVx 0xA) ∧ decodeWord 0b1111_1011_0011_0011 = .ok (.ldBVx 0xB) ∧
    decodeWord 0b1111_1100_0101_0101 = .ok (.ldMemVx 0xC) ∧ decodeWord 0b1111_1101_0110_0101 = .ok (.ldVxMem 0xD) :=
  ⟨rfl, rfl, rfl, rfl⟩

theorem test_decode_bytes_first_is_high :
    decode [0x6A, 0x12, 0xFF] = .ok (.ldImm 0xA 0x12, [0xFF]) ∧ decode [0x6A] = .error .truncated ∧
    encode (.ldImm 0xA 0x12) = [0x6A, 0x12] ∧ decodeTableWord 16 0x6A12 = some (.ldImm 0xA 0x12) := ⟨rfl, rfl, rfl, rfl⟩

/-! ## What is ill formed is refused (R88, R258) -/

/-- T1 to T3, T5, T7, S7: families 0, 5, 9. -/
theorem test_unknown_words_0_5_9 :
    [(0x0000 : Word), 0x00E1, 0x0123, 0x5121, 0x5001, 0x9121].all unknown = true := by
  decide +kernel

/-- T6: family 8. -/
theorem test_unknown_words_8 :
    [(0x8128 : Word), 0x8129, 0x812A, 0x812B, 0x812C, 0x812D, 0x812F].all unknown = true := by
  decide +kernel

/-- T8, T9: families E, F. -/
theorem test_unknown_words_E_F :
    [(0xE39F : Word), 0xE300, 0xE3A0, 0xF300, 0xF308, 0xF356, 0xF3FF].all unknown = true := by
  decide +kernel

theorem test_wordWellFormed_accepts :
    [(0x00E0 : Word), 0x1FFF, 0x5120, 0x812E, 0xE3A1, 0xF365].all wordWellFormed = true := by
  decide +kernel

theorem test_romWellFormed_boundary :
    romWellFormed (List.replicate 3584 0) = true ∧ romWellFormed (List.replicate 3585 0) = false := by
  constructor <;> (rw [romWellFormed, List.length_replicate]; rfl)

theorem test_table_step_runs_the_placed_word :
    step (State.reset.withFetchWord 16 0x6A12) = exec (.ldImm 0xA 0x12) (State.reset.withFetchWord 16 0x6A12) ∧
    (State.reset.withFetchWord 16 0x6A12).mem = [(0x200, 0x6A), (0x201, 0x12)] := ⟨rfl, rfl⟩

/-! ## Fetch and the program counter -/

/-- T11, T12. -/
theorem test_fetch_big_endian_and_odd :
    (ready 0x6A12).fetchWord = .ok 0x6A12 ∧ ((State.reset.storeBytes 0x201 [0x12, 0x34]).setPc 0x201).fetchWord = .ok 0x1234 :=
  ⟨rfl, rfl⟩

/-- T13 to T16. -/
theorem test_fetch_at_the_end_of_memory :
    ((State.reset.storeBytes 0xFFE [0x12, 0x34]).setPc 0xFFE).fetchWord = .ok 0x1234 ∧
    (State.reset.setPc 0xFFF).fetchWord = .error (.memoryBoundsError 0xFFF) ∧
    (State.reset.setPc 0x1000).fetchWord = .error (.memoryBoundsError 0x1000) ∧
    (State.reset.setPc 0xFFFF).fetchWord = .error (.memoryBoundsError 0xFFFF) := ⟨rfl, rfl, rfl, rfl⟩

/-- T17 to T19. -/
theorem test_pc_wraps_at_16_bits :
    done 0x6000 (State.reset.setPc 0xFFE) (·.pc == 0x1000) = true ∧
    done 0x3000 (State.reset.setPc 0xFFE) (·.pc == 0x1002) = true ∧
    done 0x6000 (State.reset.setPc 0xFFFE) (·.pc == 0) = true := ⟨rfl, rfl, rfl⟩

/-! ## Loads and arithmetic -/

/-- T22, T23. -/
theorem test_ldImm : done 0x6AFF State.reset (fun t => t.reg 0xA == 0xFF && t.pc == 0x202) = true ∧
    done 0x6F07 State.reset (·.reg 0xF == 7) = true := ⟨rfl, rfl⟩

/-- T20, T21 (S1). -/
theorem test_addImm_no_flag :
    done 0x7101 (withRegs [(1, 0xFF), (15, 0x55)]) (fun t => t.reg 1 == 0 && t.reg 15 == 0x55) = true ∧
    done 0x7F02 (withRegs [(15, 0xFF)]) (·.reg 15 == 1) = true := ⟨rfl, rfl⟩

/-- T24 to T27. -/
theorem test_logic_leaves_flag :
    done 0x8120 (withRegs [(1, 0x11), (2, 0x22), (15, 7)]) (fun t => t.reg 1 == 0x22 && t.reg 2 == 0x22 && t.reg 15 == 7) = true ∧
    done 0x8121 (withRegs [(1, 0xF0), (2, 0x3C), (15, 7)]) (fun t => t.reg 1 == 0xFC && t.reg 15 == 7) = true ∧
    done 0x8122 (withRegs [(1, 0xF0), (2, 0x3C), (15, 7)]) (fun t => t.reg 1 == 0x30 && t.reg 15 == 7) = true ∧
    done 0x8123 (withRegs [(1, 0xF0), (2, 0x3C), (15, 7)]) (fun t => t.reg 1 == 0xCC && t.reg 15 == 7) = true :=
  ⟨rfl, rfl, rfl, rfl⟩

/-- S2, T29. -/
theorem test_addReg_carry :
    done 0x8124 (withRegs [(1, 0xFF), (2, 1)]) (fun t => t.reg 1 == 0 && t.reg 15 == 1) = true ∧
    done 0x8124 (withRegs [(1, 1), (2, 1)]) (fun t => t.reg 1 == 2 && t.reg 15 == 0) = true ∧
    done 0x8114 (withRegs [(1, 0x80)]) (fun t => t.reg 1 == 0 && t.reg 15 == 1) = true := ⟨rfl, rfl, rfl⟩

/-- T31 to T33: the flag register as destination and as operand. -/
theorem test_addReg_flag_register :
    done 0x8F24 (withRegs [(15, 0xF0), (2, 0x20)]) (fun t => t.reg 15 == 1 && t.reg 2 == 0x20) = true ∧
    done 0x8F24 (withRegs [(15, 0x10), (2, 0x20)]) (·.reg 15 == 0) = true ∧
    done 0x81F4 (withRegs [(1, 0xFF), (15, 1)]) (fun t => t.reg 1 == 0 && t.reg 15 == 1) = true := ⟨rfl, rfl, rfl⟩

/-- S3, T34, T36. -/
theorem test_sub :
    done 0x8125 (withRegs [(1, 5), (2, 0xA)]) (fun t => t.reg 1 == 0xFB && t.reg 15 == 0) = true ∧
    done 0x8125 (withRegs [(1, 0xA), (2, 5)]) (fun t => t.reg 1 == 5 && t.reg 15 == 1) = true ∧
    done 0x8125 (withRegs [(1, 0x33), (2, 0x33)]) (fun t => t.reg 1 == 0 && t.reg 15 == 1) = true ∧
    done 0x8F25 (withRegs [(15, 5), (2, 3)]) (fun t => t.reg 15 == 1 && t.reg 2 == 3) = true := ⟨rfl, rfl, rfl, rfl⟩

/-- T37 to T39. -/
theorem test_shr :
    done 0x8106 (withRegs [(1, 5)]) (fun t => t.reg 1 == 2 && t.reg 15 == 1) = true ∧
    done 0x8126 (withRegs [(1, 4), (2, 0xFF)]) (fun t => t.reg 1 == 2 && t.reg 2 == 0xFF && t.reg 15 == 0) = true ∧
    done 0x8F06 (withRegs [(15, 3)]) (·.reg 15 == 1) = true := ⟨rfl, rfl, rfl⟩

/-- T40 to T42. -/
theorem test_subn :
    done 0x8127 (withRegs [(1, 5), (2, 0xA)]) (fun t => t.reg 1 == 5 && t.reg 15 == 1) = true ∧
    done 0x8127 (withRegs [(1, 0xA), (2, 5)]) (fun t => t.reg 1 == 0xFB && t.reg 15 == 0) = true ∧
    done 0x8127 (withRegs [(1, 7), (2, 7)]) (fun t => t.reg 1 == 0 && t.reg 15 == 1) = true := ⟨rfl, rfl, rfl⟩

/-- T43 to T45. -/
theorem test_shl :
    done 0x810E (withRegs [(1, 0x81)]) (fun t => t.reg 1 == 2 && t.reg 15 == 1) = true ∧
    done 0x810E (withRegs [(1, 0x7F), (15, 1)]) (fun t => t.reg 1 == 0xFE && t.reg 15 == 0) = true ∧
    done 0x8F0E (withRegs [(15, 0x80)]) (·.reg 15 == 1) = true := ⟨rfl, rfl, rfl⟩

/-- T46, T47: the random byte given. -/
theorem test_rnd_with_the_byte_given :
    perform (.decodeExecute 0xC30F 0xA7) State.reset = (.ok, (withRegs [(3, 7)]).setPc 0x202) ∧
    perform (.decodeExecute 0xC300 0xFF) (withRegs [(3, 9)]) = (.ok, (withRegs [(3, 0)]).setPc 0x202) := by decide +kernel

/-- The mask holds whatever the free byte is, and one byte is drawn (R165, R166). -/
theorem test_rnd_step_draws_a_free_byte :
    step (ready 0xC300) = .next { ready 0xC300 with regs := (State.reset.setReg 3 (Config.rndByte 0 &&& 0)).regs,
                                                    pc := 0x202, draws := 1 } := rfl

/-! ## Control flow -/

/-- T49, T50. -/
theorem test_jp : done 0x1FFF State.reset (·.pc == 0xFFF) = true ∧ step (ready 0x1200) = .next (ready 0x1200) := ⟨rfl, rfl⟩

/-- T51, T52. -/
theorem test_jpV0 : done 0xB300 (withRegs [(0, 4)]) (·.pc == 0x304) = true ∧
    done 0xBFFF (withRegs [(0, 2)]) (·.pc == 1) = true := ⟨rfl, rfl⟩

/-- T53, T54. -/
theorem test_call :
    done 0x2300 State.reset (fun t => t.stack[0] == 0x200 && t.sp.val == 1 && t.pc == 0x300) = true ∧
    errs (.decodeExecute 0x2300 0) (withStack (List.replicate 16 0x200)) (.stackOverflow 16) = true := by decide +kernel

/-- T55, T56 (T4). -/
theorem test_ret :
    errs (.decodeExecute 0x00EE 0) State.reset (.stackUnderflow 0) = true ∧
    done 0x00EE (withStack [0x200, 0x1234]) (fun t => t.sp.val == 1 && t.pc == 0x1234 && t.stack[1] == 0x1234) = true := by decide +kernel

/-- S6, T57: the return goes back to the call itself. -/
theorem test_call_then_ret :
    (runOps [.decodeExecute 0x2204 0, .decodeExecute 0x00EE 0] State.reset).pc = 0x200 := rfl

/-! ## Skips -/

/-- T58, T59. -/
theorem test_seImm : done 0x3000 (State.reset.setPc 0x208) (·.pc == 0x20C) = true ∧
    done 0x3000 ((withRegs [(0, 4)]).setPc 0x208) (·.pc == 0x20A) = true := ⟨rfl, rfl⟩

/-- T60, T61. -/
theorem test_sneImm : done 0x4211 ((withRegs [(2, 0x10)]).setPc 0x300) (·.pc == 0x304) = true ∧
    done 0x4210 ((withRegs [(2, 0x10)]).setPc 0x300) (·.pc == 0x302) = true := ⟨rfl, rfl⟩

/-- T62, T63. -/
theorem test_seReg : done 0x5120 (withRegs [(1, 0x7F), (2, 0x7F)]) (·.pc == 0x204) = true ∧
    done 0x5120 (withRegs [(1, 0x7F), (2, 0x7E)]) (·.pc == 0x202) = true := ⟨rfl, rfl⟩

/-- T64, T65. -/
theorem test_sneReg : done 0x9120 (withRegs [(1, 1), (2, 2)]) (·.pc == 0x204) = true ∧
    done 0x9110 (withRegs [(1, 1)]) (·.pc == 0x202) = true := ⟨rfl, rfl⟩

/-- T66 to T68. -/
theorem test_skp : done 0xE39E ((withRegs [(3, 7)]).withKey 7 true) (·.pc == 0x204) = true ∧
    done 0xE39E (withRegs [(3, 7)]) (·.pc == 0x202) = true ∧
    done 0xE39E ((withRegs [(3, 0x17)]).withKey 7 true) (·.pc == 0x204) = true := ⟨rfl, rfl, rfl⟩

/-- T69, T70. -/
theorem test_sknp : done 0xE3A1 (withRegs [(3, 7)]) (·.pc == 0x204) = true ∧
    done 0xE3A1 ((withRegs [(3, 7)]).withKey 7 true) (·.pc == 0x202) = true := ⟨rfl, rfl⟩

/-! ## Index and memory -/

/-- T71, T73, T74. -/
theorem test_ldI_addIVx :
    done 0xAFFF State.reset (fun t => t.index == 0xFFF && t.pc == 0x202) = true ∧
    done 0xF21E ((withRegs [(2, 1), (15, 9)]).setIndex 0xFFF) (fun t => t.index == 0 && t.reg 15 == 9) = true ∧
    done 0xF21E ((withRegs [(2, 0xFF)]).setIndex 0xFF0) (·.index == 0x0EF) = true := ⟨rfl, rfl, rfl⟩

/-- T75, T76. -/
theorem test_ldFVx : done 0xF029 (withRegs [(0, 0xA)]) (·.index == 0x032) = true ∧
    done 0xF029 (withRegs [(0, 0xFF)]) (·.index == 0x4FB) = true := ⟨rfl, rfl⟩

/-- S4, T81: memory as data, the digit 0 would list nothing. -/
theorem test_ldBVx :
    done 0xF033 ((withRegs [(0, 156)]).setIndex 0x300) (·.mem == [(0x300, 1), (0x301, 5), (0x302, 6)]) = true ∧
    done 0xF033 ((withRegs [(0, 0xFF)]).setIndex 0xFFD) (·.mem == [(0xFFD, 2), (0xFFE, 5), (0xFFF, 5)]) = true ∧
    done 0xF033 (((withRegs [(0, 9)]).setIndex 0x300).storeBytes 0x300 [0xAA, 0xAA, 0xAA]) (·.mem == [(0x302, 9)]) = true :=
  ⟨rfl, rfl, rfl⟩

/-- T82. -/
theorem test_ldBVx_bounds :
    errs (.decodeExecute 0xF033 0) ((withRegs [(0, 0xFF)]).setIndex 0xFFE) (.memoryBoundsError 0xFFE) = true := by decide +kernel

/-- T83, T85. -/
theorem test_ldMemVx :
    done 0xFF55 ((withRegs [(0, 1), (15, 0xEE)]).setIndex 0xFF0)
      (fun t => t.mem == [(0xFF0, 1), (0xFFF, 0xEE)] && t.index == 0xFF0 && t.pc == 0x202) = true ∧
    done 0xF055 (withRegs [(0, 0xAB)]) (·.mem == [(0, 0xAB)]) = true := ⟨rfl, rfl⟩

/-- T88, T87. -/
theorem test_ldVxMem :
    done 0xF265 (withRegs [(3, 1)]) (fun t => t.reg 0 == 0xF0 && t.reg 1 == 0x90 && t.reg 2 == 0x90 && t.reg 3 == 1 && t.index == 0) = true ∧
    done 0xF065 ((withRegs [(0, 1)]).setIndex 0xFFF) (·.reg 0 == 0) = true := ⟨rfl, rfl⟩

/-- T84, T86. -/
theorem test_block_transfer_bounds :
    errs (.decodeExecute 0xFF55 0) ((withRegs [(0, 1)]).setIndex 0xFF1) (.memoryBoundsError 0xFF1) = true ∧
    errs (.decodeExecute 0xF165 0) ((withRegs [(0, 1)]).setIndex 0xFFF) (.memoryBoundsError 0xFFF) = true := by decide +kernel

/-! ## The display -/

/-- T90. -/
theorem test_cls :
    done 0x00E0 { withRegs [(15, 5)] with disp := togglePixel (togglePixel 0 0 0) 63 31 }
      (fun t => lit t.disp [] && t.redraw && t.reg 15 == 5 && t.pc == 0x202) = true := by decide +kernel

/-- S5: the first draw at (8, 4). -/
theorem test_drw_draws :
    done 0xD011 ((((withData 0x300 [0xFF]).setReg 0 8).setReg 1 4).setReg 15 7)
      (fun t => lit t.disp ((List.range 8).map fun c => (8 + c, 4)) && t.reg 15 == 0 && t.redraw && t.pc == 0x202) = true := by
  decide +kernel

/-- T97: a collision in the first row is kept; T91, T99: clipping at the right and the bottom. -/
theorem test_drw_collides_and_clips :
    done 0xD012 { withData 0x300 [0xC0, 0x00] with disp := togglePixel 0 0 0 }
      (fun t => lit t.disp [(1, 0)] && t.reg 15 == 1) = true ∧
    done 0xD015 (withRegs [(0, 60), (1, 30)])
      (fun t => lit t.disp [(60, 30), (61, 30), (62, 30), (63, 30), (60, 31), (63, 31)] && t.reg 15 == 0) = true := by
  decide +kernel

/-- T95. -/
theorem test_drw_bounds :
    errs (.decodeExecute 0xD012 0) ((withRegs [(15, 1)]).setIndex 0xFFF) (.memoryBoundsError 0xFFF) = true := by decide +kernel

/-! ## Timers, keys and the operations of the host -/

/-- T101 to T103. -/
theorem test_timer_registers :
    done 0xF507 (State.reset.setDt 0x3C) (fun t => t.reg 5 == 0x3C && t.dt == 0x3C && t.pc == 0x202) = true ∧
    done 0xF515 (withRegs [(5, 0x3C)]) (fun t => t.dt == 0x3C && t.st == 0) = true ∧
    done 0xF518 (withRegs [(5, 2)]) (fun t => t.st == 2 && t.dt == 0) = true := ⟨rfl, rfl, rfl⟩

/-- T104, T105. -/
theorem test_ldVxK :
    perform (.decodeExecute 0xF30A 0) State.reset = (.waiting, State.reset) ∧
    done 0xF30A ((State.reset.withKey 7 true).withKey 0xB true) (fun t => t.reg 3 == 7 && t.pc == 0x202) = true := ⟨rfl, rfl⟩

/-- T107, T109, S8. -/
theorem test_tickTimers :
    (perform .tickTimers (State.reset.setDt 2)).2 = State.reset.setDt 1 ∧
    (perform .tickTimers ((State.reset.setDt 0xFF).setSt 0xFF)).2 = (State.reset.setDt 0xFE).setSt 0xFE ∧
    perform .tickTimers State.reset = (.ok, State.reset) := ⟨rfl, rfl, rfl⟩

/-- T110, T111. -/
theorem test_setKey_and_takeRedrawFlag :
    runOps [.setKey 7 true, .setKey 7 false] State.reset = State.reset ∧
    (perform (.setKey 7 true) State.reset).2.keyDown 7 = true ∧
    perform .takeRedrawFlag { State.reset with redraw := true } = (.flag true, State.reset) ∧
    perform .takeRedrawFlag State.reset = (.flag false, State.reset) := ⟨rfl, rfl, rfl, rfl⟩

/-- T112 to T114: an error changes nothing, is raised again, and is no latch. -/
theorem test_errors_are_no_latch :
    errs (.step 0) State.reset (.unknownOpcode 0) = true ∧
    (runOps [.step 0, .step 0, .decodeExecute 0x6A12 0] State.reset).reg 0xA = 0x12 ∧
    perform .initialise (ready 0x6A12) = (.ok, State.reset) := by decide +kernel

/-- The codes of R241. -/
theorem test_fault_codes : (Fault.unknownOpcode 0).code = 1 ∧ (Fault.memoryBoundsError 0).code = 2 ∧
    (Fault.stackOverflow 16).code = 3 ∧ (Fault.stackUnderflow 0).code = 4 := ⟨rfl, rfl, rfl, rfl⟩

/-! ## Witnesses: the hypotheses of every obligation are met -/

/-- EveryStepKeepsTheInvariant. -/
theorem witness_step_from_the_invariant : (ready 0xF055).Inv ∧ ∃ t, step (ready 0xF055) = .next t := ⟨by decide, _, rfl⟩

/-- EveryScheduleKeepsTheInvariant. -/
theorem witness_schedule : State.reset.Inv ∧ writesFlag (.addReg 1 2) = true ∧
    ∃ t, exec (.addReg 1 2) (runOps [.decodeExecute 0x61FF 0] State.reset) = .next t := ⟨by decide, rfl, _, rfl⟩

/-- EncodeOfDecodeIsTheWord, DecoderAcceptsExactlyTheOpcodeMap: a shift, whose Y is ignored. -/
theorem witness_word_decodes : decodeWord 0x8126 = .ok (.shr 1 2) ∧ (⟨"SHR", 0x8006, 0xF00F⟩ : OpcodeRow) ∈ opcodeMap := ⟨rfl, by decide⟩

/-- UnknownOpcodeChangesNothing. -/
theorem witness_unknown_word_at_pc : wordWellFormed 0x5001 = false ∧ (ready 0x5001).fetchWord = .ok 0x5001 := ⟨by decide, rfl⟩

/-- FetchReadsTwoBytesBigEndian, the clauses' boundary: 0xFFE and 0xFFF. -/
theorem witness_fetch_bounds : (State.reset.setPc 0xFFE).pc.toNat + 1 ≤ 4095 ∧ 4095 < (State.reset.setPc 0xFFF).pc.toNat + 1 := by
  decide

/-- StepRunsTheDecodedInstruction, every clause, the first two at the last pair of bytes. -/
theorem witness_step_clauses :
    (((State.reset.storeBytes 0xFFE [0x60, 0x01]).setPc 0xFFE).pc.toNat + 1 ≤ 4095 ∧
      decode [((State.reset.storeBytes 0xFFE [0x60, 0x01]).setPc 0xFFE).byteAt 0xFFE,
        ((State.reset.storeBytes 0xFFE [0x60, 0x01]).setPc 0xFFE).byteAt 0xFFF] = .ok (.ldImm 0 1, [])) ∧
    decode [(State.reset.setPc 0xFFE).byteAt 0xFFE, (State.reset.setPc 0xFFE).byteAt 0xFFF] = .error (.unknownOpcode 0) ∧
    4095 < (State.reset.setPc 0xFFF).pc.toNat + 1 := ⟨⟨by decide, rfl⟩, rfl, by decide⟩

/-- StepIsTheStepOperationOnAFreeByte: a next state, also of a waiting `FX0A`, and an error. -/
theorem witness_step_outcomes : (∃ t, step (ready 0x6A12) = .next t) ∧ step (ready 0xF30A) = .next (ready 0xF30A) ∧
    step State.reset = .fault (.unknownOpcode 0) := ⟨⟨_, rfl⟩, rfl, rfl⟩

/-- PlacedInstructionIsTheNextOneRun: at the last pair of bytes, and parts beside the two bytes. -/
theorem witness_placed : (State.reset.setPc 0xFFE).mem.wf = true ∧ (State.reset.setPc 0xFFE).pc.toNat + 1 ≤ 4095 ∧
    (Component.byte 0xFFD).isByteIn 0xFFE 2 = false ∧ (Component.reg 3).isByteIn 0xFFE 2 = false := by decide

/-- CanonicalMemoriesThatReadAlikeAreEqual. -/
theorem witness_canonical_memory : Memory.wf [(0, 1), (0x300, 2)] = true ∧
    ∀ a, Memory.read [(0, 1), (0x300, 2)] a = ((Memory.write [] 0x300 2).write 0 1).read a := ⟨by decide, fun _ => rfl⟩

/-- JumpSetsTheProgramCounter: the jump to itself and the jump to 0xFFF. -/
theorem witness_jump : State.reset.pc.toNat = (0x200 : BitVec 12).toNat ∧ (0xFFF : BitVec 12) = 0xFFF := ⟨rfl, rfl⟩

/-- CallPushesItsOwnAddress: `sp` = 0, 15 and 16. -/
theorem witness_call_clauses : State.reset.sp.val < 16 ∧ (withStack (List.replicate 15 1)).sp.val = 15 ∧
    (withStack (List.replicate 16 1)).sp.val = 16 := by decide

/-- ReturnPopsTheProgramCounter: `sp` = 1, 16 and 0. -/
theorem witness_return_clauses : (withStack [7]).sp.val = (0 : Fin 16).val + 1 ∧
    (withStack (List.replicate 16 1)).sp.val = (15 : Fin 16).val + 1 ∧ State.reset.sp.val = 0 := by decide

/-- ReturnGoesBackToTheCallItself: the state after the call, with another `pc` and another register. -/
theorem witness_return_to_the_call : ∃ t u : State, exec (.call 0x300) State.reset = .next t ∧
    u.stack = t.stack ∧ u.sp = t.sp ∧ u.pc ≠ t.pc :=
  ⟨(withStack [0x200]).setPc 0x300, (withStack [0x200]).setPc 0x306, rfl, rfl, rfl, by decide⟩

/-- StackIsLastInFirstOutAndSixteenDeep: sixteen words and seventeen from an empty stack. -/
theorem witness_stack_depths : State.reset.sp.val + (List.replicate 16 (7 : Word)).length ≤ 16 ∧
    16 < State.reset.sp.val + (List.replicate 17 (7 : Word)).length ∧ State.reset.sp.val = 0 := by decide

/-- ProgramCounterAfterEachInstruction: a next state and an error. -/
theorem witness_pc_table : (∃ t, exec (.skp 3) State.reset = .next t) ∧ (∃ t, exec .ret (withStack [7]) = .next t) ∧
    perform (.decodeExecute 0x00EE 0) State.reset = (.err (.stackUnderflow 0), State.reset) := ⟨⟨_, rfl⟩, ⟨_, rfl⟩, rfl⟩

/-- ImmediateSkips, RegisterSkips: both clauses. -/
theorem witness_skip_clauses : State.reset.reg 1 = 0 ∧ State.reset.reg 1 ≠ 0xFF ∧ State.reset.reg 1 = State.reset.reg 2 ∧
    (withRegs [(1, 1)]).reg 1 ≠ (withRegs [(1, 1)]).reg 2 ∧ (15 : BitVec 4) ≠ 0 := by decide

/-- KeySkipsTestTheLowNibble: the first and the last key, down and up, a register above 15. -/
theorem witness_key_skip_clauses : ((withRegs [(1, 0x1F)]).reg 1).toNat % 16 = (15 : Key).val ∧
    ((withRegs [(1, 0x1F)]).withKey 15 true).keyDown 15 = true ∧ (withRegs [(1, 0x1F)]).keyDown 15 = false ∧
    (State.reset.reg 1).toNat % 16 = (0 : Key).val := by decide

/-- The frame clauses of the register instructions: a register that is neither the destination nor the flag; and X = 0xF and
X below it. -/
theorem witness_other_registers : (3 : Reg) ≠ 1 ∧ (3 : Reg) ≠ 15 ∧ (1 : Reg) ≠ 15 := by decide

/-- FontAddressIsFiveTimesTheRegister: the last digit and the first byte above it. -/
theorem witness_font_digits : ((withRegs [(0, 15)]).reg 0).toNat < 16 ∧ ¬ ((withRegs [(0, 16)]).reg 0).toNat < 16 ∧
    State.reset.byteAt (5 * 15 + 4) = 0x80 := by decide

/-- BcdStoresThreeDigits: `index` = 0xFFD and 0xFFE. -/
theorem witness_bcd_bounds : (State.reset.setIndex 0xFFD).index.toNat + 2 ≤ 4095 ∧
    4095 < (State.reset.setIndex 0xFFE).index.toNat + 2 ∧ State.reset.mem.wf = true := by decide

/-- BlockStoreCopiesRegistersToMemory, BlockLoadCopiesMemoryToRegisters: X = 15 with `index` = 0xFF0 and 0xFF1. -/
theorem witness_block_bounds : (State.reset.setIndex 0xFF0).index.toNat + (15 : Reg).val ≤ 4095 ∧
    4095 < (State.reset.setIndex 0xFF1).index.toNat + (15 : Reg).val := by decide

/-- BlockStoreThenLoadRestoresTheRegisters: the registers differ in between. -/
theorem witness_store_then_load : State.reset.mem.wf = true ∧ ∃ t u : State, exec (.ldMemVx 3) (withRegs [(0, 7)]) = .next t ∧
    u.mem = t.mem ∧ u.index = (withRegs [(0, 7)]).index ∧ u.reg 0 ≠ t.reg 0 :=
  ⟨by decide, { withRegs [(0, 7)] with mem := [(0, 7), (1, 0), (2, 0), (3, 0)], pc := 0x202 },
    { State.reset with mem := [(0, 7), (1, 0), (2, 0), (3, 0)] }, rfl, rfl, rfl, by decide⟩

/-- StoredCodeIsSeenByTheNextFetch, `FX55`: the first two registers, and the last two of sixteen, stored where `pc` goes. -/
theorem witness_stored_code : State.reset.mem.wf = true ∧
    (∃ t, exec (.ldMemVx 1) ((withRegs [(0, 0x12), (1, 0x02)]).setIndex 0x202) = .next t ∧ t.pc.toNat = 0x202 + (0 : Reg).val) ∧
    (∃ t, exec (.ldMemVx 15) (State.reset.setIndex 0x1F4) = .next t ∧ t.pc.toNat = 0x1F4 + (14 : Reg).val) ∧
    (15 : Reg).val = (14 : Reg).val + 1 := ⟨by decide, ⟨_, rfl, rfl⟩, ⟨_, rfl, rfl⟩, rfl⟩

/-- The same, `FX33`: the digits of 156 with `pc` at the hundreds and at the tens; and LoadProgram, where `pc` is at its first byte. -/
theorem witness_stored_digits_and_rom :
    (∃ t, exec (.ldBVx 0) ((withRegs [(0, 156)]).setIndex 0x202) = .next t ∧ t.pc.toNat = 0x202) ∧
    (∃ t, exec (.ldBVx 0) ((withRegs [(0, 156)]).setIndex 0x201) = .next t ∧ t.pc.toNat = 0x201 + 1) ∧
    ((1 : Byte).toNat = 156 / 100 ∧ (5 : Byte).toNat = 156 / 10 % 10 ∧ (6 : Byte).toNat = 156 % 10) ∧
    [(0x6A : Byte), 0x12].length ≤ 3584 ∧ [(0x6A : Byte), 0x12][1]? = some 0x12 ∧
    (perform (.loadProgram [0x6A, 0x12]) State.reset).2.pc.toNat + 1 = 0x200 + 1 :=
  ⟨⟨_, rfl, rfl⟩, ⟨_, rfl, rfl⟩, by decide, by decide, rfl, rfl⟩

/-- DrawIsOneSimultaneousXor: N = 0, the last row of memory, and a set sprite bit on a lit pixel and on no lit pixel. -/
theorem witness_draw_clauses : (0 : BitVec 4).toNat = 0 ∧ (State.reset.setIndex 0xFF1).index.toNat + (15 : BitVec 4).toNat - 1 ≤ 4095 ∧
    pixelAt { State.reset with disp := togglePixel 0 0 0 }.disp 0 0 = true ∧
    State.spriteCovers State.reset 0 0 1 0 0 = true ∧ pixelAt State.reset.disp 0 0 = false := by decide +kernel

/-- DrawingTwiceRestoresTheDisplay: the state after the first draw. -/
theorem witness_draw_twice : ∃ t u : State, exec (.drw 0 1 5) State.reset = .next t ∧ u.disp = t.disp ∧ u.mem = State.reset.mem ∧
    u.index = State.reset.index ∧ u.reg 0 = State.reset.reg 0 ∧ u.reg 1 = State.reset.reg 1 :=
  ⟨State.reset.drawSprite 0 1 [0xF0, 0x90, 0x90, 0x90, 0xF0], State.reset.drawSprite 0 1 [0xF0, 0x90, 0x90, 0x90, 0xF0],
    rfl, rfl, rfl, rfl, by simp [State.drawSprite, State.setFlag_eq], by simp [State.drawSprite, State.setFlag_eq]⟩

/-- SpriteStartedBeyondAnEdgeDrawsNothing: the first column and the first row beyond, and N = 0; SpriteBeyondMemoryIsABoundsError:
the first `index` beyond. -/
theorem witness_sprite_edges : 64 ≤ ((withRegs [(0, 64)]).reg 0).toNat ∧ 32 ≤ ((withRegs [(1, 32)]).reg 1).toNat ∧
    (0 : BitVec 4).toNat = 0 ∧ 0 < (2 : BitVec 4).toNat ∧ 4095 < (State.reset.setIndex 0xFFF).index.toNat + (2 : BitVec 4).toNat - 1 := by decide

/-- RedrawPendingIsSetByDrawingOnly. -/
theorem witness_redraw : (∃ t, exec .cls State.reset = .next t) ∧ (∃ t, exec (.ldI 5) State.reset = .next t) := ⟨⟨_, rfl⟩, ⟨_, rfl⟩⟩

/-- KeyWaitStoresTheLowestKeyOrChangesNothing: no key, the first key, the last key alone. -/
theorem witness_key_wait_clauses : (∀ k, State.reset.keyDown k = false) ∧ (State.reset.withKey 0 true).keyDown 0 = true ∧
    (State.reset.withKey 15 true).keyDown 15 = true ∧ (∀ j, j < 15 → (State.reset.withKey 15 true).keyDown j = false) := by decide

/-- SetKeyAndSnapshots, TakeRedrawFlagReturnsAndClears, TickTimersDecrementsNonzeroTimers, InitializeGivesTheResetState have no
hypotheses. LoadProgramPlacesTheRomOrRefuses: 3584 and 3585 bytes. -/
theorem witness_rom_lengths : (List.replicate 3584 (0 : Byte)).length ≤ 3584 ∧ 3584 < (List.replicate 3585 (0 : Byte)).length ∧
    State.reset.mem.wf = true := by
  simp only [List.length_replicate]; decide

/-- EveryInstructionCompletesOrRaisesItsError: no error, and each of the three errors that an instruction raises. -/
theorem witness_errors : errorOf .cls State.reset = none ∧ errorOf .ret State.reset = some (.stackUnderflow 0) ∧
    errorOf (.call 0) (withStack (List.replicate 16 1)) = some (.stackOverflow 16) ∧
    errorOf (.ldBVx 0) (State.reset.setIndex 0xFFE) = some (.memoryBoundsError 0xFFE) := by decide

/-- InstructionsWriteOnlyTheirParts: the slot and the byte just beyond what is written. -/
theorem witness_frame : (∃ t, exec (.call 0x300) State.reset = .next t) ∧ mayWrite (.call 0x300) State.reset (.slot 1) = false ∧
    mayWrite (.ldBVx 0) State.reset (.byte 3) = false ∧ (Component.byte 3) ≠ .pc := ⟨⟨_, rfl⟩, by decide, by decide, by decide⟩

/-- HostOperationsWriteOnlyTheirParts. -/
theorem witness_host_frame : (Operation.loadProgram [1, 2]).mayWrite (.byte 0x202) = false ∧
    Operation.tickTimers.mayWrite .pc = false ∧ (Operation.setKey 3 true).mayWrite (.key 4) = false := by decide

/-- ErrorsLeaveNoTrace: an error of each kind. -/
theorem witness_each_error : perform (.step 0) State.reset = (.err (.unknownOpcode 0), State.reset) ∧
    perform .fetch (State.reset.setPc 0xFFF) = (.err (.memoryBoundsError 0xFFF), State.reset.setPc 0xFFF) ∧
    perform (.decodeExecute 0x00EE 0) State.reset = (.err (.stackUnderflow 0), State.reset) ∧
    (perform (.decodeExecute 0x2300 0) (withStack (List.replicate 16 1))).1 = .err (.stackOverflow 16) := ⟨rfl, rfl, rfl, rfl⟩

/-- InstructionsDependOnlyOnTheRegistersTheyRead: a shift does not read Y, an addition does not read the flag register. -/
theorem witness_unread_register : readsReg (.shr 1 2) 2 = false ∧ readsReg (.addReg 1 2) 15 = false := by decide

/-- QuiescentLoopNeverChangesTheState. -/
theorem witness_quiescent : (ready 0x1200).Quiescent := ⟨0x200, rfl, rfl⟩

end Sys2Proof.Tests
end

section
/-! O46. The state with another `redraw`, and the one fact about it: every instruction runs on that state as on the state itself,
so `redraw` is not read, and leaves there what `redrawAfter` says, so it is written by `00E0` and `DXYN` only (10_state.md R38). -/

namespace Sys2Proof.Machine

/-! ## The state with another `redraw` -/

/-- The state with `redraw` replaced, every other component as it is. -/
def State.withRedraw (s : State) (b : Bool) : State := { s with redraw := b }

@[simp] theorem State.withRedraw_redraw (s : State) (b : Bool) : (s.withRedraw b).redraw = b := rfl

@[simp] theorem State.withRedraw_self (s : State) : s.withRedraw s.redraw = s := rfl

theorem State.pop_withRedraw (s : State) (b : Bool) :
    (s.withRedraw b).pop = s.pop.map fun popped => (popped.1, popped.2.withRedraw b) := by
  unfold State.pop
  by_cases h : s.sp.val = 0
  · rw [dif_pos h]; exact dif_pos h
  · rw [dif_neg h]; exact dif_neg h

theorem State.push_withRedraw (s : State) (b : Bool) (v : Word) :
    (s.withRedraw b).push v = (s.push v).map (·.withRedraw b) := by
  unfold State.push
  by_cases h : s.sp.val < Config.stackDepth
  · rw [dif_pos h]; exact dif_pos h
  · rw [dif_neg h]; exact dif_neg h

/-- A read of memory is the same read, the bytes unchanged: `id` is what the change of `redraw` does to them. -/
theorem State.memReadBytes_withRedraw (s : State) (b : Bool) (a n : Nat) :
    (s.withRedraw b).memReadBytes a n = (s.memReadBytes a n).map id :=
  (congrFun Except.map_id (s.memReadBytes a n)).symm

theorem State.memWriteBytes_withRedraw (s : State) (b : Bool) (a : Nat) (bytes : List Byte) :
    (s.withRedraw b).memWriteBytes a bytes = (s.memWriteBytes a bytes).map (·.withRedraw b) := by
  unfold State.memWriteBytes checkBounds
  split <;> rfl

/-! ## An instruction on the state with another `redraw` -/

/-- The outcome with a function applied to its next state, if it has one. -/
def mapNext (f : State → State) : Host.Outcome State Fault Refusal → Host.Outcome State Fault Refusal
  | .next t => .next (f t)
  | .fault e => .fault e
  | .refused q => .refused q

/-- `redraw` after an instruction that completes, from `redraw` before it. -/
def redrawAfter (i : Instr) (b : Bool) : Bool :=
  match i with
  | .cls | .drw _ _ _ => true
  | _ => b

/-- An instruction whose operation may fail, on the state with another `redraw`: it is enough that the operation answers the
same there but for what `f` changes, and that the rest of the instruction ends in the same state but for `redraw`. -/
theorem outcomeOf_map_withRedraw {α : Type} {r r' : Except Fault α} {g g' : α → State} {c : Bool} (f : α → α)
    (hr : r' = r.map f) (hg : ∀ a, g' (f a) = (g a).withRedraw c) :
    outcomeOf (r'.map g') = mapNext (·.withRedraw c) (outcomeOf (r.map g)) := by
  subst hr
  cases r with
  | error e => rfl
  | ok a => exact congrArg Host.Outcome.next (hg a)

/-- Every instruction runs alike whatever `redraw` is, and leaves there what `redrawAfter` says (R38). -/
theorem exec_withRedraw (i : Instr) (s : State) (b : Bool) :
    exec i (s.withRedraw b) = mapNext (·.withRedraw (redrawAfter i b)) (exec i s) := by
  cases i with
  | ret => exact outcomeOf_map_withRedraw _ (s.pop_withRedraw b) fun _ => rfl
  | call nnn => exact outcomeOf_map_withRedraw _ (s.push_withRedraw b s.pc) fun _ => rfl
  | ldBVx x => exact outcomeOf_map_withRedraw _ (s.memWriteBytes_withRedraw b _ _) fun _ => rfl
  | ldMemVx x => exact outcomeOf_map_withRedraw _ (s.memWriteBytes_withRedraw b _ _) fun _ => rfl
  | ldVxMem x => exact outcomeOf_map_withRedraw _ (s.memReadBytes_withRedraw b _ _) fun _ => rfl
  | drw x y n => exact outcomeOf_map_withRedraw _ (s.memReadBytes_withRedraw b _ _) fun _ => rfl
  | ldVxK x =>
    have hk : (s.withRedraw b).lowestKey = s.lowestKey := rfl
    simp only [exec, execLdVxK, hk]
    cases s.lowestKey <;> rfl
  | _ => rfl

/-- What an instruction leaves in `redraw`: the state itself is the state with its own `redraw`. -/
theorem exec_next_redraw {i : Instr} {s t : State} (h : exec i s = .next t) : t.redraw = redrawAfter i s.redraw := by
  have hs := exec_withRedraw i s s.redraw
  rw [State.withRedraw_self, h] at hs
  have ht : t = t.withRedraw (redrawAfter i s.redraw) := Host.Outcome.next.inj hs
  rw [ht, State.withRedraw_redraw]

/-- Every instruction has a meaning: none is refused. -/
theorem exec_ne_refused (i : Instr) (s : State) (q : Refusal) : exec i s ≠ .refused q := by
  cases i with
  | ret | call _ | drw _ _ _ | ldBVx _ | ldMemVx _ | ldVxMem _ => exact outcomeOf_not_refused
  | ldVxK x =>
    simp only [exec, execLdVxK]
    split <;> nofun
  | _ => nofun

/-! ## The operations that run no instruction -/

/-- LoadProgram writes the memory or nothing (R258). -/
theorem State.loadProgram_redraw (s : State) (bytes : List Byte) : (s.loadProgram bytes).2.redraw = s.redraw := by
  unfold State.loadProgram
  split <;> rfl

/-- Fetch changes nothing (R252). -/
theorem perform_fetch_state (s : State) : (perform .fetch s).2 = s := by
  unfold perform
  cases s.fetchWord <;> rfl

/-- Settles O46: the first part and the last are the two readings of `exec_withRedraw`. -/
theorem redrawPendingIsSetByDrawingOnly : Obligations.RedrawPendingIsSetByDrawingOnly := by
  unfold Obligations.RedrawPendingIsSetByDrawingOnly
  refine ⟨fun i s t h => ?written, fun s => ⟨rfl, rfl⟩, fun op s => ?operations, fun i s b => ?unread⟩
  case written => cases i <;> exact exec_next_redraw h
  case operations =>
    cases op with
    | loadProgram bytes => exact s.loadProgram_redraw bytes
    | fetch => exact congrArg State.redraw (perform_fetch_state s)
    | takeRedrawFlag | initialise | decodeExecute _ _ | step _ => trivial
    | _ => rfl
  case unread =>
    have hb : exec i { s with redraw := b } = mapNext (·.withRedraw (redrawAfter i b)) (exec i s) := exec_withRedraw i s b
    rw [hb]
    cases h : exec i s with
    | next t => rfl
    | fault e => rfl
    | refused q => exact exec_ne_refused i s q h

end Sys2Proof.Machine
end

section
/-! O12. Fetch on each side of its one boundary, the last pair of bytes in memory: the big-endian word at `pc`, or the bounds
error that names `pc` (20_memory.md R52, R53). -/

namespace Sys2Proof.Machine

/-- The first byte is the high one (R55). -/
theorem wordOfBytes_toNat (first second : Byte) :
    (wordOfBytes first second).toNat = 256 * first.toNat + second.toNat := by
  rw [wordOfBytes, BitVec.toNat_append, ← Nat.shiftLeft_add_eq_or_of_lt second.isLt, Nat.shiftLeft_eq]
  omega

/-- Where both bytes lie in memory, Fetch answers their word. -/
theorem State.fetchWord_of_le {s : State} (h : s.pc.toNat + 1 ≤ 4095) :
    s.fetchWord = .ok (wordOfBytes (s.byteAt s.pc.toNat) (s.byteAt (s.pc.toNat + 1))) := by
  rcases s.fetchWord_cases with ⟨_, hok⟩ | ⟨hbeyond, _⟩
  · exact hok
  · have hsize : Config.memSize = 4096 := rfl
    omega

/-- Where the second byte lies beyond memory, Fetch answers the bounds error with `pc`. -/
theorem State.fetchWord_of_lt {s : State} (h : 4095 < s.pc.toNat + 1) :
    s.fetchWord = .error (.memoryBoundsError s.pc.toNat) := by
  rcases s.fetchWord_cases with ⟨hinside, _⟩ | ⟨_, herror⟩
  · have hsize : Config.memSize = 4096 := rfl
    omega
  · exact herror

/-- The operation Fetch hands on the word it read, and the state as it was (R252). -/
theorem perform_fetch_of_ok {s : State} {w : Word} (h : s.fetchWord = .ok w) : perform .fetch s = (.word w, s) := by
  simp only [perform, h]

/-- The operation Fetch hands on its error, and the state as it was (R252). -/
theorem perform_fetch_of_error {s : State} {f : Fault} (h : s.fetchWord = .error f) : perform .fetch s = (.err f, s) := by
  simp only [perform, h]

/-- Settles O12: the two clauses are the two sides of Fetch's boundary. -/
theorem fetchReadsTwoBytesBigEndian : Obligations.FetchReadsTwoBytesBigEndian := by
  unfold Obligations.FetchReadsTwoBytesBigEndian
  refine fun s => ⟨fun hinside => ?word, fun hbeyond => ?error⟩
  case word =>
    have hfetch := State.fetchWord_of_le hinside
    exact ⟨_, hfetch, wordOfBytes_toNat _ _, perform_fetch_of_ok hfetch⟩
  case error =>
    have hfetch := State.fetchWord_of_lt hbeyond
    exact ⟨hfetch, perform_fetch_of_error hfetch⟩

end Sys2Proof.Machine
end

section
/-! O22. Several pushes and several pops: what a whole list of pushes leaves in the stack, and that as many pops take it off again
in reverse (40_control_flow.md R115). -/

namespace Sys2Proof.Machine

/-! ## Several pushes -/

theorem pushAll_cons_of_ok {w : Word} {s t : State} (ws : List Word) (h : s.push w = .ok t) :
    pushAll (w :: ws) s = pushAll ws t := by
  simp only [pushAll, h]

theorem pushAll_cons_of_error {w : Word} {s : State} {f : Fault} (ws : List Word) (h : s.push w = .error f) :
    pushAll (w :: ws) s = .error f := by
  simp only [pushAll, h]

/-- Pushes that all succeed are a first push that succeeds and the rest from there. -/
theorem pushAll_cons_ok {w : Word} {ws : List Word} {s t : State} (h : pushAll (w :: ws) s = .ok t) :
    ∃ u, s.push w = .ok u ∧ pushAll ws u = .ok t := by
  cases hw : s.push w with
  | ok u => exact ⟨u, rfl, pushAll_cons_of_ok ws hw ▸ h⟩
  | error f => rw [pushAll_cons_of_error ws hw] at h; cases h

/-- There is room for one more word below `sp` = 16. -/
theorem State.push_some {s : State} (w : Word) (h : s.sp.val < 16) : ∃ t, s.push w = .ok t :=
  ⟨_, State.push_ok_iff.mpr ⟨h, rfl⟩⟩

/-- As many words as there are free slots fit. -/
theorem pushAll_some {ws : List Word} {s : State} (h : s.sp.val + ws.length ≤ 16) : ∃ t, pushAll ws s = .ok t := by
  induction ws generalizing s with
  | nil => exact ⟨s, rfl⟩
  | cons w ws ih =>
    rw [List.length_cons] at h
    obtain ⟨u, hu⟩ := State.push_some w (show s.sp.val < 16 by omega)
    have hsp := State.push_sp hu
    rw [pushAll_cons_of_ok ws hu]
    exact ih (by omega)

/-- One word more than that is the error of the push that finds the stack full. -/
theorem pushAll_overflow {ws : List Word} {s : State} (h : 16 < s.sp.val + ws.length) :
    pushAll ws s = .error (.stackOverflow 16) := by
  induction ws generalizing s with
  | nil =>
    have hsp := s.sp.isLt
    rw [List.length_nil] at h
    omega
  | cons w ws ih =>
    rw [List.length_cons] at h
    by_cases hfull : s.sp.val = 16
    · exact pushAll_cons_of_error ws (State.push_full hfull)
    · obtain ⟨u, hu⟩ := State.push_some w (show s.sp.val < 16 by omega)
      have hsp := State.push_sp hu
      rw [pushAll_cons_of_ok ws hu]
      exact ih (by omega)

theorem pushAll_sp {ws : List Word} {s t : State} (h : pushAll ws s = .ok t) : t.sp.val = s.sp.val + ws.length := by
  induction ws generalizing s with
  | nil => cases h; rfl
  | cons w ws ih =>
    obtain ⟨u, hu, hrest⟩ := pushAll_cons_ok h
    rw [ih hrest, State.push_sp hu, List.length_cons]
    omega

/-- The slots below `sp` are not written. -/
theorem pushAll_stack_below {ws : List Word} {s t : State} (h : pushAll ws s = .ok t) {k : Nat} (hk : k < s.sp.val) :
    t.stack[k]? = s.stack[k]? := by
  induction ws generalizing s with
  | nil => cases h; rfl
  | cons w ws ih =>
    obtain ⟨u, hu, hrest⟩ := pushAll_cons_ok h
    have hsp := State.push_sp hu
    have hk16 : k < 16 := by omega
    rw [ih hrest (by omega), Vector.getElem?_eq_getElem hk16, Vector.getElem?_eq_getElem hk16,
      State.push_stack hu k hk16, if_neg (by omega)]

/-- The word pushed first stands in the slot at the old `sp`: later pushes go above it. -/
theorem pushAll_stack_first {w : Word} {ws : List Word} {s u t : State} (hu : s.push w = .ok u)
    (hrest : pushAll ws u = .ok t) : t.stack[s.sp.val]? = some w := by
  obtain ⟨hroom, -⟩ := State.push_ok_iff.mp hu
  rw [pushAll_stack_below hrest (by rw [State.push_sp hu]; omega), Vector.getElem?_eq_getElem hroom,
    State.push_stack hu _ hroom, if_pos rfl]

/-- The words stand in the slots from the old `sp` up, in the order they were pushed. -/
theorem pushAll_stack {ws : List Word} {s t : State} (h : pushAll ws s = .ok t) {k : Nat} (hk : k < ws.length) :
    t.stack[s.sp.val + k]? = ws[k]? := by
  induction ws generalizing s k with
  | nil => cases hk
  | cons w ws ih =>
    obtain ⟨u, hu, hrest⟩ := pushAll_cons_ok h
    cases k with
    | zero => exact pushAll_stack_first hu hrest
    | succ k =>
      have hslot := ih hrest (Nat.lt_of_succ_lt_succ hk)
      rw [State.push_sp hu] at hslot
      rw [List.getElem?_cons_succ, ← hslot, Nat.add_right_comm, Nat.add_assoc]

/-! ## Several pops -/

/-- One pop and then `n` more. -/
theorem popAll_succ_of_ok {n : Nat} {s t : State} {w : Word} (h : s.pop = .ok (w, t)) :
    popAll (n + 1) s = (popAll n t).map fun r => (w :: r.1, r.2) := by
  simp only [popAll, h]

theorem popAll_succ_of_error {n : Nat} {s : State} {f : Fault} (h : s.pop = .error f) :
    popAll (n + 1) s = .error f := by
  simp only [popAll, h]

/-- `n` pops and then one more: the word that comes off last is the last of the list. -/
theorem popAll_succ_of_last {n : Nat} {s t u : State} {ws : List Word} {w : Word} (h : popAll n s = .ok (ws, t))
    (hlast : t.pop = .ok (w, u)) : popAll (n + 1) s = .ok (ws ++ [w], u) := by
  induction n generalizing s ws with
  | zero => cases h; rw [popAll_succ_of_ok hlast]; rfl
  | succ n ih =>
    cases hpop : s.pop with
    | error f => rw [popAll_succ_of_error hpop] at h; cases h
    | ok popped =>
      rw [popAll_succ_of_ok hpop] at h
      cases hrest : popAll n popped.2 with
      | error f => rw [hrest] at h; cases h
      | ok r =>
        rw [hrest] at h
        cases h
        rw [popAll_succ_of_ok hpop, ih hrest]
        rfl

/-- A pop takes off the slot just below `sp`. -/
theorem State.pop_of_sp_succ {s : State} {k : Fin 17} {w : Word} (hsp : s.sp.val = k.val + 1)
    (hslot : s.stack[k.val]? = some w) : s.pop = .ok (w, { s with sp := k }) := by
  obtain ⟨hk, hw⟩ := Vector.getElem?_eq_some_iff.mp hslot
  have hbelow : s.sp.val - 1 = k.val := by omega
  refine State.pop_ok_iff.mpr ⟨by omega, by omega, ?_, ?_⟩
  · simp only [hbelow, hw]
  · simp only [hbelow]

/-- Last in, first out: as many pops as there were pushes take the words off in reverse and put `sp` back, and no slot is
written. -/
theorem popAll_pushAll {ws : List Word} {s t : State} (h : pushAll ws s = .ok t) :
    popAll ws.length t = .ok (ws.reverse, { t with sp := s.sp }) := by
  induction ws generalizing s with
  | nil => cases h; rfl
  | cons w ws ih =>
    obtain ⟨u, hu, hrest⟩ := pushAll_cons_ok h
    have hslot : t.stack[s.sp.val]? = some w := pushAll_stack_first hu hrest
    have hsp : u.sp.val = s.sp.val + 1 := State.push_sp hu
    have hlast : State.pop { t with sp := u.sp } = .ok (w, { t with sp := s.sp }) := State.pop_of_sp_succ hsp hslot
    rw [List.length_cons, List.reverse_cons]
    exact popAll_succ_of_last (ih hrest) hlast

/-- Settles O22: the pushes that fit are `pushAll_stack` and `popAll_pushAll`, the ones that do not `pushAll_overflow`. -/
theorem stackIsLastInFirstOutAndSixteenDeep : Obligations.StackIsLastInFirstOutAndSixteenDeep := by
  unfold Obligations.StackIsLastInFirstOutAndSixteenDeep
  refine fun s ws => ⟨fun hfits => ?fits, pushAll_overflow, fun hempty => popAll_succ_of_error (State.pop_empty hempty)⟩
  case fits =>
    obtain ⟨t, ht⟩ := pushAll_some hfits
    exact ⟨t, { t with sp := s.sp }, ht, pushAll_sp ht, fun k hk => pushAll_stack ht hk, popAll_pushAll ht, rfl⟩

end Sys2Proof.Machine
end

section
/-! O17, O18, O19. The jumps and the call: where `pc` goes, what is pushed, and nothing else (40_control_flow.md R113, R114,
R116). -/

namespace Sys2Proof.Machine

@[simp] theorem State.setPc_self (s : State) : s.setPc s.pc = s := rfl

theorem exec_jp (nnn : BitVec 12) (s : State) : exec (.jp nnn) s = .next (s.setPc (addressOf nnn)) := rfl

theorem exec_jpV0 (nnn : BitVec 12) (s : State) : exec (.jpV0 nnn) s = .next (s.setPc (s.jumpV0Target nnn)) := rfl

/-- A call whose push succeeds goes on from the pushed state at `NNN`. -/
theorem exec_call_of_ok {s t : State} (nnn : BitVec 12) (h : s.push s.pc = .ok t) :
    exec (.call nnn) s = .next (t.setPc (addressOf nnn)) :=
  outcomeOf_map_next.mpr ⟨t, h, rfl⟩

/-- A call whose push fails ends in the push's error. -/
theorem exec_call_of_error {s : State} {f : Fault} (nnn : BitVec 12) (h : s.push s.pc = .error f) :
    exec (.call nnn) s = .fault f :=
  outcomeOf_map_fault.mpr h

/-- Settles O17. -/
theorem jumpSetsTheProgramCounter : Obligations.JumpSetsTheProgramCounter := by
  unfold Obligations.JumpSetsTheProgramCounter
  refine fun nnn s => ⟨_, exec_jp nnn s, toNat_addressOf nnn, rfl, fun hself => ?self, fun hlast => ?last⟩
  case self =>
    have htarget : addressOf nnn = s.pc := BitVec.eq_of_toNat_eq ((toNat_addressOf nnn).trans hself.symm)
    rw [htarget, State.setPc_self]
  case last =>
    subst hlast
    exact State.fetchWord_of_lt (s := s.setPc (addressOf 0xFFF)) (by simp)

/-- Settles O18. -/
theorem indexedJumpAddsRegisterZero : Obligations.IndexedJumpAddsRegisterZero := by
  unfold Obligations.IndexedJumpAddsRegisterZero
  exact fun nnn s => ⟨_, exec_jpV0 nnn s, toNat_jumpV0Target s nnn, rfl⟩

/-- Settles O19: the two clauses are the two outcomes of the push. -/
theorem callPushesItsOwnAddress : Obligations.CallPushesItsOwnAddress := by
  unfold Obligations.CallPushesItsOwnAddress
  refine fun nnn s => ⟨fun hroom => ?room, fun hfull => exec_call_of_error nnn (State.push_full hfull)⟩
  case room =>
    obtain ⟨t, ht⟩ := State.push_some s.pc hroom
    have hsp : t.sp.val = s.sp.val + 1 := State.push_sp ht
    have hstack (k : Fin 16) : t.stack[k.val] = if k.val = s.sp.val then s.pc else s.stack[k.val] :=
      State.push_stack ht k.val k.isLt
    refine ⟨_, exec_call_of_ok nnn ht, toNat_addressOf nnn, hsp, hstack, ?frame⟩
    obtain ⟨-, rfl⟩ := State.push_ok_iff.mp ht
    rfl

end Sys2Proof.Machine
end

section
/-! O23. What each instruction does to `pc`, one lemma per way to change it: the skips, the key wait, the call and the return, the
instructions that access a range of memory (40_control_flow.md R112); and that an error leaves the whole state (60_exceptions.md
R246). -/

namespace Sys2Proof.Machine

/-- The branch router on a condition that says `p` (R130). -/
theorem State.skipIf_pc (s : State) {c : Bool} {p : Prop} [Decidable p] (h : c = true ↔ p) :
    (s.skipIf c).pc = s.pc + if p then 4 else 2 := by
  simp only [State.skipIf, State.advance_pc, h]

/-- The branch router on a condition that says that `p` does not hold. -/
theorem State.skipIf_pc_of_not (s : State) {c : Bool} {p : Prop} [Decidable p] (h : c = true ↔ ¬p) :
    (s.skipIf c).pc = s.pc + if p then 2 else 4 := by
  rw [State.skipIf_pc s h, ite_not]

/-- A store that succeeds stores the bytes and does nothing else. -/
theorem State.memWriteBytes_ok {s t : State} {a : Nat} {bytes : List Byte} (h : s.memWriteBytes a bytes = .ok t) :
    t = s.storeBytes a bytes := by
  unfold State.memWriteBytes at h
  rcases checkBounds_cases a bytes.length (s.storeBytes a bytes) with ⟨-, hok⟩ | ⟨-, herror⟩
  · rw [hok] at h; exact (Except.ok.inj h).symm
  · rw [herror] at h; cases h

/-- An instruction that stores bytes and then advances. -/
theorem pc_of_store {s t : State} {a : Nat} {bytes : List Byte}
    (h : outcomeOf ((s.memWriteBytes a bytes).map fun u => u.advance 2) = .next t) : t.pc = s.pc + 2 := by
  obtain ⟨u, hu, rfl⟩ := outcomeOf_map_next.mp h
  rw [State.memWriteBytes_ok hu, State.advance_pc, State.storeBytes_pc]

/-- The key wait stays where it is while no key is pressed (R224). -/
theorem pc_of_ldVxK {x : Reg} {s t : State} (h : exec (.ldVxK x) s = .next t) :
    t.pc = if ∀ k, s.keyDown k = false then s.pc else s.pc + 2 := by
  simp only [exec, execLdVxK] at h
  cases hk : s.lowestKey with
  | none =>
    rw [hk] at h
    cases h
    exact (if_pos (State.lowestKey_eq_none.mp hk)).symm
  | some k =>
    have hpressed : ¬ ∀ j, s.keyDown j = false := fun hnone => by simp [State.lowestKey_eq_none.mpr hnone] at hk
    rw [hk] at h
    cases h
    rw [if_neg hpressed, State.advance_pc, State.setReg_pc]

/-- The call goes to `NNN` (R116). -/
theorem pc_of_call {nnn : BitVec 12} {s t : State} (h : exec (.call nnn) s = .next t) : t.pc.toNat = nnn.toNat := by
  obtain ⟨u, -, rfl⟩ := outcomeOf_map_next.mp h
  exact toNat_addressOf nnn

/-- The return goes to the word it pops (R117). -/
theorem pc_of_ret {s t : State} (h : exec .ret s = .next t) :
    s.sp.val ≠ 0 ∧ s.stack[s.sp.val - 1]? = some t.pc := by
  obtain ⟨⟨w, u⟩, hpop, rfl⟩ := outcomeOf_map_next.mp h
  obtain ⟨hsp, hslot, rfl, -⟩ := State.pop_ok_iff.mp hpop
  exact ⟨hsp, Vector.getElem?_eq_getElem hslot⟩

/-- DecodeExecute that answers an error leaves the state as it was (R246). -/
theorem State.decodeExecute_err {s t : State} {w : Word} {rnd : Byte} {f : Fault}
    (h : s.decodeExecute w rnd = (.err f, t)) : t = s := by
  unfold State.decodeExecute at h
  cases hd : decodeWord w with
  | error e => rw [hd] at h; cases h; rfl
  | ok i =>
    simp only [hd] at h
    cases hx : execWithRnd rnd i s with
    | next u =>
      rw [hx] at h
      obtain ⟨hresult, -⟩ := Prod.mk.inj h
      split at hresult <;> cases hresult
    | fault e => rw [hx] at h; cases h; rfl
    | refused q => rw [hx] at h; cases h

/-- Settles O23: the table by instruction, then the errors. -/
theorem programCounterAfterEachInstruction : Obligations.ProgramCounterAfterEachInstruction := by
  unfold Obligations.ProgramCounterAfterEachInstruction
  refine ⟨fun i s t h => ?table, fun w rnd f s t h => congrArg State.pc (State.decodeExecute_err h)⟩
  case table =>
    cases i with
    | jp nnn => cases h; exact toNat_addressOf nnn
    | jpV0 nnn => cases h; exact toNat_jumpV0Target s nnn
    | call nnn => exact pc_of_call h
    | ret => exact pc_of_ret h
    | seImm x nn | seReg x y => cases h; exact s.skipIf_pc beq_iff_eq
    | sneImm x nn | sneReg x y => cases h; exact s.skipIf_pc_of_not bne_iff_ne
    | skp x => cases h; exact s.skipIf_pc Iff.rfl
    | sknp x => cases h; exact s.skipIf_pc_of_not (by simp)
    | ldVxK x => exact pc_of_ldVxK h
    | ldBVx x | ldMemVx x => exact pc_of_store h
    | drw x y n | ldVxMem x => obtain ⟨bytes, -, rfl⟩ := outcomeOf_map_next.mp h; rfl
    | _ => cases h; rfl

end Sys2Proof.Machine
end

section
/-! O24, O25. The four skips that compare two bytes: a skip taken and not taken; and the words of families 5 and 9 that are no
instruction (41_skips.md R131 to R134; 30_encoding.md R88). -/

namespace Sys2Proof.Machine

/-! ## The skips -/

/-- A skip whose condition holds leaves out the next instruction (R130). -/
theorem exec_skip_taken {i : Instr} {s : State} {c : Bool} (hskip : exec i s = .next (s.skipIf c)) (h : c = true) :
    exec i s = .next { s with pc := s.pc + 4 } := by
  subst h; exact hskip

/-- A skip whose condition does not hold goes on with the next instruction (R130). -/
theorem exec_skip_not_taken {i : Instr} {s : State} {c : Bool} (hskip : exec i s = .next (s.skipIf c)) (h : c = false) :
    exec i s = .next { s with pc := s.pc + 2 } := by
  subst h; exact hskip

theorem exec_seImm (x : Reg) (nn : Byte) (s : State) : exec (.seImm x nn) s = .next (s.skipIf (s.reg x == nn)) := rfl

theorem exec_sneImm (x : Reg) (nn : Byte) (s : State) : exec (.sneImm x nn) s = .next (s.skipIf (s.reg x != nn)) := rfl

theorem exec_seReg (x y : Reg) (s : State) : exec (.seReg x y) s = .next (s.skipIf (s.reg x == s.reg y)) := rfl

theorem exec_sneReg (x y : Reg) (s : State) : exec (.sneReg x y) s = .next (s.skipIf (s.reg x != s.reg y)) := rfl

theorem exec_seReg_of_eq {x y : Reg} {s : State} (h : s.reg x = s.reg y) :
    exec (.seReg x y) s = .next { s with pc := s.pc + 4 } :=
  exec_skip_taken (exec_seReg x y s) (beq_iff_eq.mpr h)

theorem exec_sneReg_of_eq {x y : Reg} {s : State} (h : s.reg x = s.reg y) :
    exec (.sneReg x y) s = .next { s with pc := s.pc + 2 } :=
  exec_skip_not_taken (exec_sneReg x y s) (bne_eq_false_iff_eq.mpr h)

/-! ## The words with N other than 0 -/

/-- Families 5 and 9 hold one instruction each, the one with N = 0 (R88). -/
theorem decodeWord_of_fieldN_ne_zero {w : Word} (hop : fieldOp w = 0x5 ∨ fieldOp w = 0x9) (hn : fieldN w ≠ 0) :
    decodeWord w = .error (.unknownOpcode w) := by
  unfold decodeWord
  rcases hop with hop | hop
  · rw [hop]; exact if_neg hn
  · rw [hop]; exact if_neg hn

/-! ## The two obligations -/

/-- Settles O24: the two clauses are the two cases of the comparison. -/
theorem immediateSkips : Obligations.ImmediateSkips := by
  unfold Obligations.ImmediateSkips
  refine fun x nn s => ⟨fun heq => ⟨?seEqual, ?sneEqual⟩, fun hne => ⟨?seUnequal, ?sneUnequal⟩⟩
  case seEqual => exact exec_skip_taken (exec_seImm x nn s) (beq_iff_eq.mpr heq)
  case sneEqual => exact exec_skip_not_taken (exec_sneImm x nn s) (bne_eq_false_iff_eq.mpr heq)
  case seUnequal => exact exec_skip_not_taken (exec_seImm x nn s) (beq_eq_false_iff_ne.mpr hne)
  case sneUnequal => exact exec_skip_taken (exec_sneImm x nn s) (bne_iff_ne.mpr hne)

/-- Settles O25: X = Y is a case of equal registers. -/
theorem registerSkips : Obligations.RegisterSkips := by
  unfold Obligations.RegisterSkips
  refine fun x y s => ⟨fun heq => ⟨exec_seReg_of_eq heq, exec_sneReg_of_eq heq⟩, fun hne => ⟨?seUnequal, ?sneUnequal⟩,
    exec_seReg_of_eq rfl, exec_sneReg_of_eq rfl, fun n hn => ⟨?five, ?nine⟩⟩
  case seUnequal => exact exec_skip_not_taken (exec_seReg x y s) (beq_eq_false_iff_ne.mpr hne)
  case sneUnequal => exact exec_skip_taken (exec_sneReg x y s) (bne_iff_ne.mpr hne)
  case five => exact decodeWord_of_fieldN_ne_zero (.inl (fieldOp_formXYN ..)) (by rwa [fieldN_formXYN])
  case nine => exact decodeWord_of_fieldN_ne_zero (.inr (fieldOp_formXYN ..)) (by rwa [fieldN_formXYN])

end Sys2Proof.Machine
end

section
/-! O27, O29, O32. The two instructions with an immediate, the sum with its carry, and the random byte under its mask: the one
register written, the flag, and nothing else but `pc` (42_load_alu.md R151, R152, R160, R165). -/

namespace Sys2Proof.Machine

/-! ## One register written, then `advance(2)` -/

theorem State.reg_setReg_advance_same (s : State) (x : Reg) (v : Byte) (k : Word) : ((s.setReg x v).advance k).reg x = v := by
  rw [State.reg_advance, State.reg_setReg, if_pos rfl]

theorem State.reg_setReg_advance_of_ne (s : State) {x r : Reg} (v : Byte) (k : Word) (h : r ≠ x) :
    ((s.setReg x v).advance k).reg r = s.reg r := by
  rw [State.reg_advance, State.reg_setReg, if_neg h]

theorem exec_ldImm (x : Reg) (nn : Byte) (s : State) : exec (.ldImm x nn) s = .next ((s.setReg x nn).advance 2) := rfl

theorem exec_addImm (x : Reg) (nn : Byte) (s : State) :
    exec (.addImm x nn) s = .next ((s.setReg x (s.reg x + nn)).advance 2) := rfl

/-! ## The result and the flag -/

theorem exec_addReg (x y : Reg) (s : State) :
    exec (.addReg x y) s = .next (s.writeResultAndFlag x (s.reg x + s.reg y) (carryFlag (s.reg x) (s.reg y))) := rfl

/-- Whatever X is, `reg[15]` is left with the flag (R155). -/
theorem State.reg_writeResultAndFlag_flag (s : State) (x : Reg) (v : Byte) (f : Bool) :
    (s.writeResultAndFlag x v f).reg 15 = flagByte f := by
  rw [State.reg_writeResultAndFlag, if_pos rfl]

theorem State.reg_writeResultAndFlag_result (s : State) {x : Reg} (v : Byte) (f : Bool) (h : x ≠ 15) :
    (s.writeResultAndFlag x v f).reg x = v := by
  rw [State.reg_writeResultAndFlag, if_neg h, if_pos rfl]

theorem State.reg_writeResultAndFlag_other (s : State) {x r : Reg} (v : Byte) (f : Bool) (hx : r ≠ x) (h15 : r ≠ 15) :
    (s.writeResultAndFlag x v f).reg r = s.reg r := by
  rw [State.reg_writeResultAndFlag, if_neg h15, if_neg hx]

/-- A flag computed as the decision of `p` is 1 when `p` holds and 0 when it does not. -/
theorem flagByte_decide (p : Prop) [Decidable p] : flagByte (decide p) = if p then 1 else 0 := by
  simp only [flagByte, decide_eq_true_eq]

/-! ## DecodeExecute of an instruction's own word -/

/-- The decoder reads back every instruction from its word (R82, R83). -/
theorem decodeWord_encodeWord (i : Instr) : decodeWord (encodeWord i) = .ok i := by
  cases i with
  | cls | ret => rfl
  | _ => simp [encodeWord, decodeWord, decodeFamily8, decodeFamilyE, decodeFamilyF]

/-- DecodeExecute of a word whose instruction completes and does not wait answers its next state (R253). -/
theorem State.decodeExecute_of_next {s t : State} {w : Word} {i : Instr} {rnd : Byte} (hd : decodeWord w = .ok i)
    (hx : execWithRnd rnd i s = .next t) (hwait : waitsIn i s = false) : s.decodeExecute w rnd = (.ok, t) := by
  simp [State.decodeExecute, hd, hx, hwait]

/-- DecodeExecute of `CXNN` loads the byte it is given, under the mask (R165). -/
theorem perform_decodeExecute_rnd (x : Reg) (nn rnd : Byte) (s : State) :
    perform (.decodeExecute (encodeWord (.rnd x nn)) rnd) s = (.ok, (s.setReg x (rnd &&& nn)).advance 2) :=
  State.decodeExecute_of_next (decodeWord_encodeWord (.rnd x nn)) rfl rfl

/-! ## The three obligations -/

/-- Settles O27. -/
theorem immediateLoadAndAdd : Obligations.ImmediateLoadAndAdd := by
  unfold Obligations.ImmediateLoadAndAdd
  refine fun x nn s => ⟨⟨_, exec_ldImm x nn s, ?loaded, fun r hr => ?ldFrame, rfl⟩,
    ⟨_, exec_addImm x nn s, ?sum, fun r hr => ?addFrame, rfl⟩⟩
  case loaded => exact s.reg_setReg_advance_same x nn 2
  case ldFrame => exact s.reg_setReg_advance_of_ne nn 2 hr
  case sum => rw [s.reg_setReg_advance_same, BitVec.toNat_add]
  case addFrame => exact s.reg_setReg_advance_of_ne _ 2 hr

/-- Settles O29: the flag is written after the sum, so the carry stands in `reg[15]` for X = 0xF too. -/
theorem addWithCarryFlag : Obligations.AddWithCarryFlag := by
  unfold Obligations.AddWithCarryFlag
  refine fun x y s => ⟨_, exec_addReg x y s, fun hx => ?sum, ?carry, fun r hx h15 => ?frame, s.writeResultAndFlag_eq x _ _⟩
  case sum => rw [s.reg_writeResultAndFlag_result _ _ hx, BitVec.toNat_add]
  case carry => rw [s.reg_writeResultAndFlag_flag, carryFlag, flagByte_decide]
  case frame => exact s.reg_writeResultAndFlag_other _ _ hx h15

/-- Settles O32. -/
theorem randomByteUnderTheMask : Obligations.RandomByteUnderTheMask := by
  unfold Obligations.RandomByteUnderTheMask
  refine fun x nn rnd s => ⟨_, perform_decodeExecute_rnd x nn rnd s, fun k _ => ?masked, fun r hr => ?frame, rfl⟩
  case masked => rw [s.reg_setReg_advance_same, BitVec.getLsbD_and]
  case frame => exact s.reg_setReg_advance_of_ne _ 2 hr

end Sys2Proof.Machine
end

section
/-! O34, O36, O37, O38. The load of `index` and the sum into it; the range of bytes from `index` up on each side of its one
boundary, where its last address is 4095; and what a store leaves in memory, a load in the registers (43_index_memory.md R181,
R182, R184, R185, R187). -/

namespace Sys2Proof.Machine

/-! ## A range by its last address -/

/-- A range whose last address lies in the memory passes the check (R59). -/
theorem checkBounds_of_le {α : Type} {base k : Nat} (v : α) (h : base + k ≤ 4095) : checkBounds base (k + 1) v = .ok v :=
  if_pos (inBounds_iff.mpr (.inr (Nat.succ_le_succ h)))

/-- A range whose last address lies beyond the memory is the error that names the first one (R59). -/
theorem checkBounds_of_lt {α : Type} {base k : Nat} (v : α) (h : 4095 < base + k) :
    checkBounds base (k + 1) v = .error (.memoryBoundsError base) := by
  refine if_neg fun hin => ?_
  have hsize : Config.memSize = 4096 := rfl
  have hfits : k + 1 = 0 ∨ base + (k + 1) ≤ Config.memSize := inBounds_iff.mp hin
  omega

theorem State.memWriteBytes_of_le {s : State} {a k : Nat} {bytes : List Byte} (hlen : bytes.length = k + 1)
    (h : a + k ≤ 4095) : s.memWriteBytes a bytes = .ok (s.storeBytes a bytes) := by
  rw [State.memWriteBytes, hlen, checkBounds_of_le _ h]

theorem State.memWriteBytes_of_lt {s : State} {a k : Nat} {bytes : List Byte} (hlen : bytes.length = k + 1)
    (h : 4095 < a + k) : s.memWriteBytes a bytes = .error (.memoryBoundsError a) := by
  rw [State.memWriteBytes, hlen, checkBounds_of_lt _ h]

/-! ## The five instructions -/

@[simp] theorem length_bcdDigits (v : Byte) : (bcdDigits v).length = 3 := rfl

theorem exec_ldI (nnn : BitVec 12) (s : State) : exec (.ldI nnn) s = .next ((s.setIndex (addressOf nnn)).advance 2) := rfl

theorem exec_addIVx (x : Reg) (s : State) : exec (.addIVx x) s = .next ((s.setIndex (s.indexPlus x)).advance 2) := rfl

theorem exec_ldBVx_of_le (x : Reg) {s : State} (h : s.index.toNat + 2 ≤ 4095) :
    exec (.ldBVx x) s = .next ((s.storeBytes s.index.toNat (bcdDigits (s.reg x))).advance 2) :=
  outcomeOf_map_next.mpr ⟨_, State.memWriteBytes_of_le (length_bcdDigits _) h, rfl⟩

theorem exec_ldBVx_of_lt (x : Reg) {s : State} (h : 4095 < s.index.toNat + 2) :
    exec (.ldBVx x) s = .fault (.memoryBoundsError s.index.toNat) :=
  outcomeOf_map_fault.mpr (State.memWriteBytes_of_lt (length_bcdDigits _) h)

theorem exec_ldMemVx_of_le {x : Reg} {s : State} (h : s.index.toNat + x.val ≤ 4095) :
    exec (.ldMemVx x) s = .next ((s.storeBytes s.index.toNat (s.regsUpTo x)).advance 2) :=
  outcomeOf_map_next.mpr ⟨_, State.memWriteBytes_of_le (s.regsUpTo_length x) h, rfl⟩

theorem exec_ldMemVx_of_lt {x : Reg} {s : State} (h : 4095 < s.index.toNat + x.val) :
    exec (.ldMemVx x) s = .fault (.memoryBoundsError s.index.toNat) :=
  outcomeOf_map_fault.mpr (State.memWriteBytes_of_lt (s.regsUpTo_length x) h)

theorem exec_ldVxMem_of_le {x : Reg} {s : State} (h : s.index.toNat + x.val ≤ 4095) :
    exec (.ldVxMem x) s =
      .next ((s.setRegsFrom ((List.range (x.val + 1)).map fun i => s.byteAt (s.index.toNat + i))).advance 2) :=
  outcomeOf_map_next.mpr ⟨_, checkBounds_of_le _ h, rfl⟩

theorem exec_ldVxMem_of_lt {x : Reg} {s : State} (h : 4095 < s.index.toNat + x.val) :
    exec (.ldVxMem x) s = .fault (.memoryBoundsError s.index.toNat) :=
  outcomeOf_map_fault.mpr (checkBounds_of_lt _ h)

/-! ## What is stored and loaded -/

/-- A number no greater than some byte, as a decimal digit of it is, fits into a byte whole (R184). -/
theorem toNat_ofNat_of_le_byte {d : Nat} {v : Byte} (h : d ≤ v.toNat) : (BitVec.ofNat 8 d).toNat = d := by
  rw [BitVec.toNat_ofNat, Nat.mod_eq_of_lt (Nat.lt_of_le_of_lt h v.isLt)]

/-- Registers read from memory: those that a byte was read for, and no other (R187). -/
theorem State.reg_setRegsFrom_range (s : State) (f : Nat → Byte) (x r : Reg) :
    (s.setRegsFrom ((List.range (x.val + 1)).map f)).reg r = if r ≤ x then f r.val else s.reg r := by
  rw [State.reg_setRegsFrom, List.getD_eq_getElem?_getD]
  by_cases hr : r ≤ x
  · have hlt : r.val < x.val + 1 := Nat.lt_succ_of_le hr
    simp [hr, hlt]
  · simp [hr]

/-! ## The four obligations -/

/-- Settles O34. -/
theorem loadIndexAndAddToIndex : Obligations.LoadIndexAndAddToIndex := by
  unfold Obligations.LoadIndexAndAddToIndex
  exact ⟨fun nnn s => ⟨_, exec_ldI nnn s, toNat_addressOf nnn, rfl⟩,
    fun x s => ⟨_, exec_addIVx x s, toNat_indexPlus s x, rfl⟩⟩

/-- Settles O36: the two clauses are the two sides of the range's boundary. -/
theorem bcdStoresThreeDigits : Obligations.BcdStoresThreeDigits := by
  unfold Obligations.BcdStoresThreeDigits
  refine fun x s => ⟨fun h => ⟨_, exec_ldBVx_of_le x h, fun hwf => ?digits, fun a ha => ?frame, rfl⟩, exec_ldBVx_of_lt x⟩
  case digits =>
    have hread := s.byteAt_storeBytes_inside (bcdDigits (s.reg x)) hwf (Nat.succ_le_succ h)
    refine ⟨?hundreds, ?tens, ?units⟩
    case hundreds =>
      exact (congrArg BitVec.toNat (hread 0 (by simp))).trans (toNat_ofNat_of_le_byte (Nat.div_le_self _ _))
    case tens =>
      exact (congrArg BitVec.toNat (hread 1 (by simp))).trans
        (toNat_ofNat_of_le_byte ((Nat.mod_le _ _).trans (Nat.div_le_self _ _)))
    case units =>
      exact (congrArg BitVec.toNat (hread 2 (by simp))).trans (toNat_ofNat_of_le_byte (Nat.mod_le _ _))
  case frame => exact s.byteAt_storeBytes_outside _ (ha.imp_right Nat.succ_le_of_lt)

/-- Settles O37: the two clauses are the two sides of the range's boundary. -/
theorem blockStoreCopiesRegistersToMemory : Obligations.BlockStoreCopiesRegistersToMemory := by
  unfold Obligations.BlockStoreCopiesRegistersToMemory
  refine fun x s => ⟨fun h => ⟨_, exec_ldMemVx_of_le h, fun hwf r hr => ?stored, fun a ha => ?frame, rfl⟩, exec_ldMemVx_of_lt⟩
  case stored =>
    have hlen := s.regsUpTo_length x
    have hsize : Config.memSize = 4096 := rfl
    have hlt : r.val < (s.regsUpTo x).length := hlen ▸ Nat.lt_succ_of_le hr
    rw [State.byteAt_advance, s.byteAt_storeBytes_inside _ hwf (by omega) r.val hlt, State.regsUpTo_getElem]
  case frame =>
    have hlen := s.regsUpTo_length x
    exact s.byteAt_storeBytes_outside _ (by omega)

/-- Settles O38: the two clauses are the two sides of the range's boundary. -/
theorem blockLoadCopiesMemoryToRegisters : Obligations.BlockLoadCopiesMemoryToRegisters := by
  unfold Obligations.BlockLoadCopiesMemoryToRegisters
  refine fun x s => ⟨fun h => ⟨_, exec_ldVxMem_of_le h, fun r => ?loaded, rfl⟩, exec_ldVxMem_of_lt⟩
  case loaded => rw [State.reg_advance, State.reg_setRegsFrom_range]

end Sys2Proof.Machine
end

section
/-! O41. `00E0`: a blank display in place of the one there was, `redraw`, and nothing else but `pc` (44_display.md R201). -/

namespace Sys2Proof.Machine

theorem exec_cls (s : State) : exec .cls s = .next ((s.showDisplay 0).advance 2) := rfl

/-- No pixel of the display 0 is on. -/
theorem pixelAt_zero (x y : Nat) : pixelAt 0 x y = false := BitVec.getLsbD_zero

/-- Settles O41: whatever the display was, `00E0` shows the display 0 in its place. -/
theorem clearScreenBlanksEveryPixel : Obligations.ClearScreenBlanksEveryPixel := by
  unfold Obligations.ClearScreenBlanksEveryPixel
  refine fun s => ⟨_, exec_cls s, fun x y _ _ => ?blank, ?redraw, ?frame⟩
  case blank => exact pixelAt_zero x y
  case redraw => exact exec_next_redraw (exec_cls s)
  case frame => rfl

end Sys2Proof.Machine
end

section
/-! O47. The three instructions that reach the timers: one reads `dt` into a register, two write a timer, and none takes 1 from a
timer as TickTimers does (45_timers_keys.md R220 to R223). -/

namespace Sys2Proof.Machine

theorem exec_ldVxDt (x : Reg) (s : State) : exec (.ldVxDt x) s = .next ((s.setReg x s.dt).advance 2) := rfl

theorem exec_ldDtVx (x : Reg) (s : State) : exec (.ldDtVx x) s = .next ((s.setDt (s.reg x)).advance 2) := rfl

theorem exec_ldStVx (x : Reg) (s : State) : exec (.ldStVx x) s = .next ((s.setSt (s.reg x)).advance 2) := rfl

/-- Settles O47: both timers are fields that the register write of `FX07` leaves alone, and each timer write leaves the other. -/
theorem timerRegistersAreReadAndWritten : Obligations.TimerRegistersAreReadAndWritten := by
  unfold Obligations.TimerRegistersAreReadAndWritten
  refine fun x s => ⟨⟨_, exec_ldVxDt x s, ?read, fun r hr => ?frame, rfl⟩, exec_ldDtVx x s, exec_ldStVx x s⟩
  case read => exact s.reg_setReg_advance_same x s.dt 2
  case frame => exact s.reg_setReg_advance_of_ne s.dt 2 hr

end Sys2Proof.Machine
end

section
/-! O9. A word that no row of the opcode map selects is refused by the decoder: whatever the decoder reads, the encoder gives the
word back, and a row selects that (30_encoding.md R82 to R84, R88). Then DecodeExecute and Step of such a word, which write nothing
and so can be repeated (60_exceptions.md R242). -/

namespace Sys2Proof

/-! ## The decoder reads no word but an instruction's own -/

variable {w : Word} {i : Instr}

/-! A word is rebuilt from the fields that its family leaves open (R82). -/

theorem formNNN_of_op {op : BitVec 4} (hop : fieldOp w = op) : formNNN op (fieldNNN w) = w := by
  rw [← hop, formNNN_fields]

theorem formXNN_of_op {op : BitVec 4} (hop : fieldOp w = op) : formXNN op (fieldX w) (fieldNN w) = w := by
  rw [← hop, formXNN_fields]

theorem formXYN_of_op {op : BitVec 4} (hop : fieldOp w = op) : formXYN op (fieldX w) (fieldY w) (fieldN w) = w := by
  rw [← hop, formXYN_fields]

theorem formXYN_of_op_N {op n : BitVec 4} (hop : fieldOp w = op) (hn : fieldN w = n) :
    formXYN op (fieldX w) (fieldY w) n = w := by
  rw [← hn, formXYN_of_op hop]

theorem formXNN_of_op_NN {op : BitVec 4} {nn : Byte} (hop : fieldOp w = op) (hnn : fieldNN w = nn) :
    formXNN op (fieldX w) nn = w := by
  rw [← hnn, formXNN_of_op hop]

theorem encodeWord_of_decodeFamily0 (h : decodeFamily0 w = .ok i) : encodeWord i = w := by
  unfold decodeFamily0 at h
  split at h
  case isTrue hw => cases h; exact hw.symm
  case isFalse =>
    split at h
    case isTrue hw => cases h; exact hw.symm
    case isFalse => cases h

theorem encodeWord_of_decodeFamily8 (hop : fieldOp w = 0x8) (h : decodeFamily8 w = .ok i) : encodeWord i = w := by
  unfold decodeFamily8 at h
  split at h <;> cases h
  all_goals exact formXYN_of_op_N hop (eq_ofNat_of_toNat ‹_›)

theorem encodeWord_of_decodeFamilyE (hop : fieldOp w = 0xE) (h : decodeFamilyE w = .ok i) : encodeWord i = w := by
  unfold decodeFamilyE at h
  split at h <;> cases h
  all_goals exact formXNN_of_op_NN hop (eq_ofNat_of_toNat ‹_›)

theorem encodeWord_of_decodeFamilyF (hop : fieldOp w = 0xF) (h : decodeFamilyF w = .ok i) : encodeWord i = w := by
  unfold decodeFamilyF at h
  split at h <;> cases h
  all_goals exact formXNN_of_op_NN hop (eq_ofNat_of_toNat ‹_›)

/-- Family 5 or 9, whose one instruction has N = 0. -/
theorem encodeWord_of_decode_N0 {op : BitVec 4} {j : Instr} (hop : fieldOp w = op)
    (hj : encodeWord j = formXYN op (fieldX w) (fieldY w) 0)
    (h : (if fieldN w = 0 then .ok j else .error (.unknownOpcode w)) = Except.ok (ε := DecodeError) i) :
    encodeWord i = w := by
  split at h
  case isTrue hn => cases h; exact hj.trans (formXYN_of_op_N hop hn)
  case isFalse => cases h

/-- The encoder gives back the word that the decoder read (R82, R83): by family, where `h_1` is family 0 and `h_17` no family. -/
theorem encodeWord_of_decodeWord (h : decodeWord w = .ok i) : encodeWord i = w := by
  unfold decodeWord at h
  split at h
  case h_1 => exact encodeWord_of_decodeFamily0 h
  case h_2 hop | h_3 hop | h_11 hop | h_12 hop => cases h; exact formNNN_of_op (eq_ofNat_of_toNat hop)
  case h_4 hop | h_5 hop | h_7 hop | h_8 hop | h_13 hop => cases h; exact formXNN_of_op (eq_ofNat_of_toNat hop)
  case h_6 hop | h_10 hop => exact encodeWord_of_decode_N0 (eq_ofNat_of_toNat hop) rfl h
  case h_9 hop => exact encodeWord_of_decodeFamily8 (eq_ofNat_of_toNat hop) h
  case h_14 hop => cases h; exact formXYN_of_op (eq_ofNat_of_toNat hop)
  case h_15 hop => exact encodeWord_of_decodeFamilyE (eq_ofNat_of_toNat hop) h
  case h_16 hop => exact encodeWord_of_decodeFamilyF (eq_ofNat_of_toNat hop) h
  case h_17 => cases h

/-! ## A row selects every instruction's word -/

open Laws.EncodesInItsRow in
/-- The lemmas of the family `EncodesInItsRow`, together. -/
theorem encodesInItsRow : ∀ i : Instr, Statement i
  | .cls => cls | .ret => ret | .jp nnn => jp nnn | .call nnn => call nnn
  | .seImm x nn => seImm x nn | .sneImm x nn => sneImm x nn | .seReg x y => seReg x y
  | .ldImm x nn => ldImm x nn | .addImm x nn => addImm x nn
  | .ldReg x y => ldReg x y | .orReg x y => orReg x y | .andReg x y => andReg x y | .xorReg x y => xorReg x y
  | .addReg x y => addReg x y | .sub x y => sub x y | .shr x y => shr x y | .subn x y => subn x y | .shl x y => shl x y
  | .sneReg x y => sneReg x y | .ldI nnn => ldI nnn | .jpV0 nnn => jpV0 nnn | .rnd x nn => rnd x nn
  | .drw x y n => drw x y n | .skp x => skp x | .sknp x => sknp x
  | .ldVxDt x => ldVxDt x | .ldVxK x => ldVxK x | .ldDtVx x => ldDtVx x | .ldStVx x => ldStVx x | .addIVx x => addIVx x
  | .ldFVx x => ldFVx x | .ldBVx x => ldBVx x | .ldMemVx x => ldMemVx x | .ldVxMem x => ldVxMem x

theorem wordWellFormed_encodeWord (i : Instr) : wordWellFormed (encodeWord i) = true := by
  have hrow : i.mnemonic ∈ (opcodeMap.filter (·.selects (encodeWord i))).map (·.mnemonic) := by
    rw [show _ = [i.mnemonic] from encodesInItsRow i]
    exact List.mem_singleton_self _
  obtain ⟨r, hr, -⟩ := List.mem_map.mp hrow
  obtain ⟨hmem, hselects⟩ := List.mem_filter.mp hr
  exact List.any_eq_true.mpr ⟨r, hmem, hselects⟩

/-- The decoder refuses a word that no row selects, and hands it on. -/
theorem decodeWord_of_not_wellFormed (h : wordWellFormed w = false) : decodeWord w = .error (.unknownOpcode w) := by
  cases hd : decodeWord w with
  | error e => rw [Machine.decodeWord_error hd]
  | ok i =>
    have hwf := wordWellFormed_encodeWord i
    rw [encodeWord_of_decodeWord hd, h] at hwf
    cases hwf

end Sys2Proof

namespace Sys2Proof.Machine

/-! ## DecodeExecute and Step of an unknown word -/

variable {s : State} {w : Word} {e : DecodeError}

/-- DecodeExecute of a word that the decoder refuses changes nothing (R242, R253). -/
theorem perform_decodeExecute_of_error (h : decodeWord w = .error e) (rnd : Byte) (s : State) :
    perform (.decodeExecute w rnd) s = (.err (.unknownOpcode w), s) := by
  simp only [perform, State.decodeExecute, h]

/-- The operation Step hands the word it fetches on to DecodeExecute (R254). -/
theorem perform_step_of_fetch (hf : s.fetchWord = .ok w) (rnd : Byte) :
    perform (.step rnd) s = perform (.decodeExecute w rnd) s := by
  simp only [perform, State.stepWith, hf]

theorem step_of_decode_error (hf : s.fetchWord = .ok w) (h : decodeWord w = .error e) :
    step s = .fault (.unknownOpcode w) := by
  simp only [step, hf, h]

/-- Settles O9: the first Step leaves the state itself, so the second one is the first again. -/
theorem unknownOpcodeChangesNothing : Obligations.UnknownOpcodeChangesNothing := by
  unfold Obligations.UnknownOpcodeChangesNothing
  intro s w rnd again hwf
  have hdecode := decodeWord_of_not_wellFormed hwf
  have hexecute (r : Byte) := perform_decodeExecute_of_error hdecode r s
  refine ⟨hexecute rnd, fun hfetch => ?fetched⟩
  have hstep (r : Byte) : perform (.step r) s = (.err (.unknownOpcode w), s) :=
    (perform_step_of_fetch hfetch r).trans (hexecute r)
  refine ⟨step_of_decode_error hfetch hdecode, hstep rnd, ?repeated⟩
  rw [hstep rnd]
  exact hstep again

end Sys2Proof.Machine
end

section
/-! O49, O50. Two operations of the host that write a component of their own and nothing else: the tick of the timers and the take
of the redraw flag (60_exceptions.md R255, R256). -/

namespace Sys2Proof.Machine

theorem perform_tickTimers (s : State) : perform .tickTimers s = (.ok, s.ticked) := rfl

theorem perform_takeRedrawFlag (s : State) : perform .takeRedrawFlag s = (.flag s.redraw, s.redrawTaken) := rfl

/-- A flag that was taken is 0, and a second take clears nothing more. -/
@[simp] theorem State.redrawTaken_redrawTaken (s : State) : s.redrawTaken.redrawTaken = s.redrawTaken := rfl

/-- Settles O49: each timer is a tick of its own (R255), a subtraction that stops at 0. -/
theorem tickTimersDecrementsNonzeroTimers : Obligations.TickTimersDecrementsNonzeroTimers := by
  unfold Obligations.TickTimersDecrementsNonzeroTimers
  refine fun s => ⟨s.ticked, perform_tickTimers s, ?delay, ?sound, ?frame⟩
  case delay => rw [State.ticked_dt, toNat_tick]
  case sound => rw [State.ticked_st, toNat_tick]
  case frame => rfl

/-- Settles O50. -/
theorem takeRedrawFlagReturnsAndClears : Obligations.TakeRedrawFlagReturnsAndClears := by
  unfold Obligations.TakeRedrawFlagReturnsAndClears
  refine fun s => ⟨s.redrawTaken, perform_takeRedrawFlag s, ?cleared, ?second⟩
  case cleared => rfl
  case second => rw [perform_takeRedrawFlag, State.redrawTaken_redraw, State.redrawTaken_redrawTaken]

end Sys2Proof.Machine
end

section
/-! O5, O6, O7, O8, O10, O11. The decoder, the encoder and the opcode map agree: an instruction is read back from its own word and
bytes, the words that are no instruction are R88's families, and a row of the map selects the words of its own instruction and no
other (30_encoding.md R80 to R91). -/

namespace Sys2Proof

/-! ## The encoder -/

/-- Settles O5: the bytes of an instruction are those of its word. -/
theorem decodeOfEncodeIsTheInstruction : Obligations.DecodeOfEncodeIsTheInstruction := by
  unfold Obligations.DecodeOfEncodeIsTheInstruction
  refine fun i rest => ⟨Machine.decodeWord_encodeWord i, ?bytes⟩
  case bytes => rw [encode, decode_bytesOfWord, Machine.decodeWord_encodeWord]; rfl

/-- Settles O6. -/
theorem encodeOfDecodeIsTheWord : Obligations.EncodeOfDecodeIsTheWord := by
  unfold Obligations.EncodeOfDecodeIsTheWord
  exact fun _ _ => encodeWord_of_decodeWord

/-- Settles O10: each word is evaluated. -/
theorem sampleWordsDecode : Obligations.SampleWordsDecode := by
  unfold Obligations.SampleWordsDecode
  and_intros <;> rfl

/-! ## The words that are no instruction, family by family -/

variable {w : Word}

/-- Family 0, whose words the decoder compares whole: below the top four bits they are the field NNN (R90). -/
theorem decodeFamily0_error_iff (hop : fieldOp w = 0) :
    decodeFamily0 w = .error (.unknownOpcode w) ↔ fieldNNN w ≠ 0x0E0 ∧ fieldNNN w ≠ 0x0EE := by
  have hword (nnn : BitVec 12) : w = formNNN 0 nnn ↔ fieldNNN w = nnn :=
    ⟨fun h => h ▸ fieldNNN_formNNN 0 nnn, fun h => h ▸ (formNNN_of_op hop).symm⟩
  have hcls : w = 0x00E0 ↔ fieldNNN w = 0x0E0 := hword 0x0E0
  have hret : w = 0x00EE ↔ fieldNNN w = 0x0EE := hword 0x0EE
  rw [Ne, ← hcls, Ne, ← hret, decodeFamily0]
  split_ifs with h h'
  · simp [h]
  · simp [h']
  · exact iff_of_true rfl ⟨h, h'⟩

/-- Family 8 is decoded by the field N, and has no operation at seven of its values (R88). -/
theorem decodeFamily8_error_iff : decodeFamily8 w = .error (.unknownOpcode w) ↔
    fieldN w ∈ [0x8, 0x9, 0xA, 0xB, 0xC, 0xD, (0xF : BitVec 4)] := by
  have hlt := (fieldN w).isLt
  unfold decodeFamily8
  split
  case h_10 =>
    simp only [imp_false] at *
    simp [← BitVec.toNat_inj]
    omega
  all_goals simp [← BitVec.toNat_inj, *]

/-- Family E is decoded by the low byte. -/
theorem decodeFamilyE_error_iff : decodeFamilyE w = .error (.unknownOpcode w) ↔ fieldNN w ∉ [0x9E, (0xA1 : Byte)] := by
  unfold decodeFamilyE
  split
  all_goals simp_all [← BitVec.toNat_inj]

/-- Family F is decoded by the low byte. -/
theorem decodeFamilyF_error_iff : decodeFamilyF w = .error (.unknownOpcode w) ↔
    fieldNN w ∉ [0x07, 0x0A, 0x15, 0x18, 0x1E, 0x29, 0x33, 0x55, (0x65 : Byte)] := by
  unfold decodeFamilyF
  split
  all_goals simp_all [← BitVec.toNat_inj]

/-- Settles O8: by family, where `h_1` is family 0 and `h_17` no family; a family that is not listed refuses no word. -/
theorem unknownWordsAreTheTableOfFamilies : Obligations.UnknownWordsAreTheTableOfFamilies := by
  unfold Obligations.UnknownWordsAreTheTableOfFamilies
  intro w
  have hop_lt := (fieldOp w).isLt
  unfold decodeWord
  split
  case h_1 hop =>
    have hop := eq_ofNat_of_toNat hop
    simp [hop, decodeFamily0_error_iff hop]
  case h_9 hop => simp [eq_ofNat_of_toNat hop, decodeFamily8_error_iff]
  case h_15 hop => simp [eq_ofNat_of_toNat hop, decodeFamilyE_error_iff]
  case h_16 hop => simp [eq_ofNat_of_toNat hop, decodeFamilyF_error_iff]
  case h_6 hop | h_10 hop => simp [eq_ofNat_of_toNat hop]
  case h_17 => simp only [imp_false] at *; omega
  all_goals simp [eq_ofNat_of_toNat ‹_›]

/-! ## The opcode map -/

/-- Settles O11. -/
theorem opcodeMapRowsAreDisjoint : Obligations.OpcodeMapRowsAreDisjoint := by
  unfold Obligations.OpcodeMapRowsAreDisjoint
  exact ⟨rfl, by decide⟩

/-- A word that a row selects has the row's fields, under the row's mask. -/
theorem fields_of_selects {r : OpcodeRow} (h : r.selects w = true) :
    w &&& r.mask = r.bits ∧ fieldOp w &&& fieldOp r.mask = fieldOp r.bits ∧
      fieldN w &&& fieldN r.mask = fieldN r.bits ∧ fieldNN w &&& fieldNN r.mask = fieldNN r.bits := by
  have hword : w &&& r.mask = r.bits := beq_iff_eq.mp h
  refine ⟨hword, ?_, ?_, ?_⟩ <;> exact hword ▸ BitVec.extractLsb'_and.symm

theorem eq_of_and_allOnes {n : Nat} {v mask bits : BitVec n} (hmask : mask = BitVec.allOnes n) (h : v &&& mask = bits) :
    v = bits := by
  rw [← h, hmask, BitVec.and_allOnes]

/-- Every row fixes the top four bits. In a family with unknown words it also fixes the field that the family is decoded by, at
one of the family's own values (R84, R88). -/
theorem row_fixes_family : ∀ r ∈ opcodeMap, fieldOp r.mask = .allOnes 4 ∧
    (fieldOp r.bits = 0x0 → r.mask = .allOnes 16 ∧ (fieldNNN r.bits = 0x0E0 ∨ fieldNNN r.bits = 0x0EE)) ∧
    (fieldOp r.bits = 0x5 ∨ fieldOp r.bits = 0x9 → fieldN r.mask = .allOnes 4 ∧ fieldN r.bits = 0) ∧
    (fieldOp r.bits = 0x8 → fieldN r.mask = .allOnes 4 ∧
      fieldN r.bits ∉ [0x8, 0x9, 0xA, 0xB, 0xC, 0xD, (0xF : BitVec 4)]) ∧
    (fieldOp r.bits = 0xE → fieldNN r.mask = .allOnes 8 ∧ fieldNN r.bits ∈ [0x9E, (0xA1 : Byte)]) ∧
    (fieldOp r.bits = 0xF → fieldNN r.mask = .allOnes 8 ∧
      fieldNN r.bits ∈ [0x07, 0x0A, 0x15, 0x18, 0x1E, 0x29, 0x33, 0x55, (0x65 : Byte)]) := by decide

/-- A word that a row selects decodes: it lies in none of the families of unknown words. -/
theorem exists_decodeWord_of_selects {r : OpcodeRow} (hr : r ∈ opcodeMap) (h : r.selects w = true) :
    ∃ i, decodeWord w = .ok i := by
  cases hd : decodeWord w with
  | ok i => exact ⟨i, rfl⟩
  | error e =>
    exfalso
    obtain rfl := Machine.decodeWord_error hd
    obtain ⟨hw, hop, hN, hNN⟩ := fields_of_selects h
    obtain ⟨hfixed, h0, h59, h8, hE, hF⟩ := row_fixes_family r hr
    rw [← eq_of_and_allOnes hfixed hop] at h0 h59 h8 hE hF
    rcases (unknownWordsAreTheTableOfFamilies w).mp hd with
      ⟨hfam, hcls, hret⟩ | ⟨hfam, hn⟩ | ⟨hfam, hn⟩ | ⟨hfam, hn⟩ | ⟨hfam, hnn⟩ | ⟨hfam, hnn⟩
    · obtain ⟨hmask, hbits⟩ := h0 hfam
      rw [← eq_of_and_allOnes hmask hw] at hbits
      exact hbits.elim hcls hret
    · obtain ⟨hmask, hbits⟩ := h59 (.inl hfam)
      exact hn ((eq_of_and_allOnes hmask hN).trans hbits)
    · obtain ⟨hmask, hbits⟩ := h8 hfam
      exact hbits (eq_of_and_allOnes hmask hN ▸ hn)
    · obtain ⟨hmask, hbits⟩ := h59 (.inr hfam)
      exact hn ((eq_of_and_allOnes hmask hN).trans hbits)
    · obtain ⟨hmask, hbits⟩ := hE hfam
      exact hnn (eq_of_and_allOnes hmask hNN ▸ hbits)
    · obtain ⟨hmask, hbits⟩ := hF hfam
      exact hnn (eq_of_and_allOnes hmask hNN ▸ hbits)

/-- A row has the mnemonic of the instruction whose word it selects, and no other row has it. -/
theorem selects_encodeWord (i : Instr) {r : OpcodeRow} (hr : r ∈ opcodeMap) :
    r.selects (encodeWord i) = (r.mnemonic == i.mnemonic) := by
  have hrow : (opcodeMap.filter (·.selects (encodeWord i))).map (·.mnemonic) = [i.mnemonic] := encodesInItsRow i
  rw [Bool.eq_iff_iff, beq_iff_eq]
  constructor
  · intro hsel
    have hmem : r.mnemonic ∈ (opcodeMap.filter (·.selects (encodeWord i))).map (·.mnemonic) :=
      List.mem_map_of_mem (List.mem_filter.mpr ⟨hr, hsel⟩)
    exact List.mem_singleton.mp (hrow ▸ hmem)
  · intro hname
    have hmem : i.mnemonic ∈ (opcodeMap.filter (·.selects (encodeWord i))).map (·.mnemonic) :=
      hrow ▸ List.mem_singleton_self _
    obtain ⟨q, hq, hqname⟩ := List.mem_map.mp hmem
    obtain ⟨hqmap, hsel⟩ := List.mem_filter.mp hq
    have hnodup : (opcodeMap.map (·.mnemonic)).Nodup :=
      List.pairwise_map.mpr (opcodeMapRowsAreDisjoint.2.imp And.right)
    rwa [List.inj_on_of_nodup_map hnodup hr hqmap (hname.trans hqname.symm)]

/-- Settles O7: a word is that of the instruction it decodes to, if it decodes. -/
theorem decoderAcceptsExactlyTheOpcodeMap : Obligations.DecoderAcceptsExactlyTheOpcodeMap := by
  unfold Obligations.DecoderAcceptsExactlyTheOpcodeMap
  refine fun w => ⟨⟨?accepted, ?selected⟩, fun i hd r hr => ?row⟩
  case accepted =>
    rintro ⟨i, hd⟩
    rw [← encodeWord_of_decodeWord hd]
    exact wordWellFormed_encodeWord i
  case selected =>
    intro hwf
    obtain ⟨r, hr, hsel⟩ := List.any_eq_true.mp hwf
    exact exists_decodeWord_of_selects hr hsel
  case row => rw [← encodeWord_of_decodeWord hd, selects_encodeWord i hr]

end Sys2Proof
end

section
/-! O14, O57. What DecodeExecute and Step can do, said once: they return an error beside the state as it was, or the instruction
completes; and the machine's step beside the operation Step (60_exceptions.md R246, R253, R254). -/

namespace Sys2Proof.Machine

/-! ## The two operations -/

/-- With the random byte given, an instruction is `CXNN` with that byte, or it runs as in the machine's step (R166). -/
theorem execWithRnd_cases (rnd : Byte) (i : Instr) (s : State) :
    (∃ x nn, i = .rnd x nn ∧ execWithRnd rnd i s = .next (s.loadRandom x nn rnd)) ∨ execWithRnd rnd i s = exec i s := by
  cases i with
  | rnd x nn => exact .inl ⟨x, nn, rfl, rfl⟩
  | _ => exact .inr rfl

theorem execWithRnd_ne_refused (rnd : Byte) (i : Instr) (s : State) (q : Refusal) : execWithRnd rnd i s ≠ .refused q := by
  rcases execWithRnd_cases rnd i s with ⟨x, nn, -, h⟩ | h
  · rw [h]; nofun
  · rw [h]; exact exec_ne_refused i s q

/-- DecodeExecute returns an error and leaves the state, or its word's instruction completes (R246, R253). -/
theorem State.decodeExecute_cases (s : State) (w : Word) (rnd : Byte) :
    (∃ f, s.decodeExecute w rnd = (.err f, s)) ∨
    ∃ i t, decodeWord w = .ok i ∧ execWithRnd rnd i s = .next t ∧
      s.decodeExecute w rnd = (if waitsIn i s then .waiting else .ok, t) := by
  unfold State.decodeExecute
  cases hd : decodeWord w with
  | error e => exact .inl ⟨_, rfl⟩
  | ok i =>
    cases hx : execWithRnd rnd i s with
    | next t => exact .inr ⟨i, t, rfl, hx, by simp only [hx]⟩
    | fault f => exact .inl ⟨f, by simp only [hx]⟩
    | refused q => exact absurd hx (execWithRnd_ne_refused rnd i s q)

/-- The operation Step returns the error of its Fetch and leaves the state, or it is DecodeExecute of the word fetched (R254). -/
theorem State.stepWith_cases (s : State) (rnd : Byte) :
    (∃ f, s.fetchWord = .error f ∧ s.stepWith rnd = (.err f, s)) ∨
    ∃ w, s.fetchWord = .ok w ∧ s.stepWith rnd = s.decodeExecute w rnd := by
  unfold State.stepWith
  cases s.fetchWord with
  | error f => exact .inl ⟨f, rfl, rfl⟩
  | ok w => exact .inr ⟨w, rfl, rfl⟩

/-- Settles O57: only Fetch, DecodeExecute and Step return errors. -/
theorem errorsLeaveNoTrace : Obligations.ErrorsLeaveNoTrace := by
  unfold Obligations.ErrorsLeaveNoTrace
  intro op s t f h
  cases op with
  | fetch => exact (congrArg Prod.snd h).symm.trans (perform_fetch_state s)
  | decodeExecute w rnd => exact State.decodeExecute_err h
  | step rnd =>
    rcases s.stepWith_cases rnd with ⟨e, -, hstep⟩ | ⟨w, -, hstep⟩
    · exact congrArg Prod.snd (h.symm.trans hstep)
    · exact State.decodeExecute_err (hstep.symm.trans h)
  | loadProgram bytes =>
    simp only [perform, State.loadProgram] at h
    split at h <;> cases h
  | _ => cases h

/-! ## The machine's step -/

/-- An instruction of the machine's step completes as it does with the next free byte given, but for the counter of draws. -/
theorem execWithRnd_of_next {i : Instr} {s t : State} (h : exec i s = .next t) :
    ∃ u, execWithRnd s.nextRnd i s = .next u ∧ t = { u with draws := t.draws } := by
  rcases execWithRnd_cases s.nextRnd i s with ⟨x, nn, rfl, hrnd⟩ | hsame
  · cases h
    exact ⟨_, hrnd, rfl⟩
  · exact ⟨t, hsame.trans h, rfl⟩

/-- An error does not depend on the random byte: `CXNN` raises none. -/
theorem execWithRnd_of_fault {i : Instr} {s : State} {f : Fault} (h : exec i s = .fault f) (rnd : Byte) :
    execWithRnd rnd i s = .fault f :=
  (execWithRnd_eq (by rintro x nn rfl; cases h) rnd s).trans h

/-- The machine's step and the operation Step on the next free byte: both fail with one error, or both complete, in the same state
but for the counter of draws. -/
theorem step_beside_perform_step (s : State) :
    (∃ f, step s = .fault f ∧ perform (.step s.nextRnd) s = (.err f, s)) ∨
    ∃ t r u, step s = .next t ∧ perform (.step s.nextRnd) s = (r, u) ∧ (r = .ok ∨ r = .waiting) ∧
      t = { u with draws := t.draws } := by
  rcases step_cases s with ⟨f, hfetch, hstep⟩ | ⟨w, hfetch, hd, hstep⟩ | ⟨w, i, hfetch, hd, hstep⟩
  · exact .inl ⟨f, hstep, by simp only [perform, State.stepWith, hfetch]⟩
  · exact .inl ⟨_, hstep, (perform_step_of_fetch hfetch _).trans (perform_decodeExecute_of_error hd _ s)⟩
  · rw [hstep, perform_step_of_fetch hfetch]
    simp only [perform, State.decodeExecute, hd]
    cases hx : exec i s with
    | next t =>
      obtain ⟨u, hu, ht⟩ := execWithRnd_of_next hx
      simp only [hu]
      exact .inr ⟨t, _, u, rfl, rfl, by split <;> simp, ht⟩
    | fault f => exact .inl ⟨f, rfl, by simp only [execWithRnd_of_fault hx]⟩
    | refused q => exact absurd hx (exec_ne_refused i s q)

/-- Settles O14. -/
theorem stepIsTheStepOperationOnAFreeByte : Obligations.StepIsTheStepOperationOnAFreeByte := by
  unfold Obligations.StepIsTheStepOperationOnAFreeByte
  intro s
  rcases step_beside_perform_step s with ⟨f, hstep, hperform⟩ | ⟨t, r, u, hstep, hperform, hr, ht⟩
  · rw [hstep, hperform]
    refine ⟨fun t h => ?_, fun g => ⟨fun h => ?_, fun h => ?_⟩, fun q h => ?_⟩ <;> cases h <;> rfl
  · rw [hstep, hperform]
    refine ⟨fun t' h => ?next, fun f => ⟨fun h => ?_, fun h => ?noError⟩, fun q h => ?_⟩
    case next => cases h; exact ⟨r, u, rfl, hr, ht⟩
    case noError =>
      obtain ⟨rfl, -⟩ := Prod.mk.inj h
      exact hr.elim nofun nofun
    all_goals cases h

end Sys2Proof.Machine
end

section
/-! O2, O3, O4. The invariant of the reachable states, and the flag: what an instruction and an operation may do to memory and
`index`, and then every schedule by induction (10_state.md R25, R40). -/

namespace Sys2Proof.Machine

/-! ## What keeps the invariant -/

/-- Only the memory and `index` matter. -/
theorem State.Inv.of_eq {s t : State} (hs : s.Inv) (hmem : t.mem = s.mem) (hindex : t.index = s.index) : t.Inv := by
  unfold State.Inv
  rwa [hmem, hindex]

/-- A new `index` of at most 0x0FFF, the memory as it was. -/
theorem State.Inv.of_index {s t : State} (hs : s.Inv) (hmem : t.mem = s.mem) (hindex : t.index.toNat ≤ 0x0FFF) : t.Inv :=
  ⟨hmem ▸ hs.1, hindex⟩

/-- A checked store that succeeds had its range in the memory, unless it stored nothing (R54, R59). -/
theorem State.memWriteBytes_ok_iff {s t : State} {a : Nat} {bytes : List Byte} :
    s.memWriteBytes a bytes = .ok t ↔ inBounds a bytes.length = true ∧ t = s.storeBytes a bytes := by
  unfold State.memWriteBytes checkBounds
  split <;> simp [*, eq_comm]

theorem wf_storeBytes_of_inBounds {m : Memory} {a : Nat} {bytes : List Byte} (hm : m.wf = true)
    (h : inBounds a bytes.length = true) : (m.writeBytes a bytes).wf = true := by
  rcases inBounds_iff.mp h with hnone | hfits
  · rw [List.eq_nil_of_length_eq_zero hnone]; exact hm
  · exact Memory.wf_writeBytes bytes hm hfits

/-- Bytes stored under the range check, then `advance`. -/
theorem inv_of_store {s t : State} {a : Nat} {bytes : List Byte} (hs : s.Inv)
    (h : outcomeOf ((s.memWriteBytes a bytes).map fun u => u.advance 2) = .next t) : t.Inv := by
  obtain ⟨u, hu, rfl⟩ := outcomeOf_map_next.mp h
  obtain ⟨hin, rfl⟩ := State.memWriteBytes_ok_iff.mp hu
  exact ⟨wf_storeBytes_of_inBounds hs.1 hin, hs.2⟩

theorem toNat_mask12_le (w : Word) : (mask12 w).toNat ≤ 0x0FFF := by
  rw [toNat_mask12]; omega

@[simp] theorem State.drawSprite_mem (s : State) (x y : Reg) (rows : List Byte) : (s.drawSprite x y rows).mem = s.mem := by
  simp only [State.drawSprite, State.setFlag, State.advance_mem, State.setReg_mem, State.showDisplay_mem]

@[simp] theorem State.drawSprite_index (s : State) (x y : Reg) (rows : List Byte) :
    (s.drawSprite x y rows).index = s.index := by
  simp only [State.drawSprite, State.setFlag, State.advance_index, State.setReg_index, State.showDisplay_index]

/-- Every instruction keeps the invariant: `index` is a 12-bit value where it is written, the memory a checked store (R25, R59). -/
theorem exec_keeps_inv {i : Instr} {s t : State} (hs : s.Inv) (h : exec i s = .next t) : t.Inv := by
  cases i with
  | ldI nnn =>
    cases h
    exact hs.of_index rfl (Nat.le_of_lt_succ (toNat_addressOf nnn ▸ nnn.isLt))
  | addIVx x | ldFVx x => cases h; exact hs.of_index rfl (toNat_mask12_le _)
  | ldBVx x | ldMemVx x => exact inv_of_store hs h
  | call nnn =>
    obtain ⟨u, hpush, rfl⟩ := outcomeOf_map_next.mp h
    obtain ⟨-, rfl⟩ := State.push_ok_iff.mp hpush
    exact hs.of_eq rfl rfl
  | ret =>
    obtain ⟨⟨w, u⟩, hpop, rfl⟩ := outcomeOf_map_next.mp h
    obtain ⟨-, -, -, rfl⟩ := State.pop_ok_iff.mp hpop
    exact hs.of_eq rfl rfl
  | ldVxMem x =>
    obtain ⟨bytes, -, rfl⟩ := outcomeOf_map_next.mp h
    exact hs.of_eq (by rw [State.advance_mem, State.setRegsFrom_mem]) (by rw [State.advance_index, State.setRegsFrom_index])
  | drw x y n =>
    obtain ⟨rows, -, rfl⟩ := outcomeOf_map_next.mp h
    exact hs.of_eq (s.drawSprite_mem x y rows) (s.drawSprite_index x y rows)
  | ldVxK x =>
    simp only [exec, execLdVxK] at h
    split at h <;> cases h <;> exact hs.of_eq rfl rfl
  | _ => cases h; exact hs.of_eq rfl rfl

/-- Settles O3: a step that answers a next state ran one instruction. -/
theorem everyStepKeepsTheInvariant : Obligations.EveryStepKeepsTheInvariant := by
  unfold Obligations.EveryStepKeepsTheInvariant
  intro s t hs hstep
  obtain ⟨w, i, -, -, hexec⟩ := step_next hstep
  exact exec_keeps_inv hs hexec

/-! ## Every operation, and every schedule -/

theorem decodeExecute_keeps_inv {s : State} (hs : s.Inv) (w : Word) (rnd : Byte) : (s.decodeExecute w rnd).2.Inv := by
  rcases s.decodeExecute_cases w rnd with ⟨f, h⟩ | ⟨i, t, -, hx, h⟩
  · rw [h]; exact hs
  · rw [h]
    rcases execWithRnd_cases rnd i s with ⟨x, nn, -, hrnd⟩ | hexec
    · rw [hrnd] at hx
      cases hx
      exact hs.of_eq rfl rfl
    · exact exec_keeps_inv hs (hexec ▸ hx)

/-- Settles O2. -/
theorem resetStateMeetsTheInvariant : Obligations.ResetStateMeetsTheInvariant := by
  unfold Obligations.ResetStateMeetsTheInvariant
  exact ⟨rfl, by decide⟩

theorem romWellFormed_iff {bytes : List Byte} : romWellFormed bytes = true ↔ bytes.length ≤ 3584 := decide_eq_true_iff

/-- A ROM that is not refused fits above the entry address (R258). -/
theorem loadProgram_keeps_inv {s : State} (hs : s.Inv) (bytes : List Byte) : (s.loadProgram bytes).2.Inv := by
  unfold State.loadProgram
  split
  case isTrue hrom =>
    have hfits : 0x200 + bytes.length ≤ 0x1000 := Nat.add_le_add_left (romWellFormed_iff.mp hrom) 0x200
    exact ⟨Memory.wf_writeBytes bytes hs.1 hfits, hs.2⟩
  case isFalse => exact hs

theorem perform_keeps_inv {s : State} (hs : s.Inv) (op : Operation) : (perform op s).2.Inv := by
  cases op with
  | initialise => exact resetStateMeetsTheInvariant
  | loadProgram bytes => exact loadProgram_keeps_inv hs bytes
  | fetch => rw [perform_fetch_state]; exact hs
  | decodeExecute w rnd => exact decodeExecute_keeps_inv hs w rnd
  | step rnd =>
    rcases s.stepWith_cases rnd with ⟨f, -, h⟩ | ⟨w, -, h⟩
    · rw [perform, h]; exact hs
    · rw [perform, h]; exact decodeExecute_keeps_inv hs w rnd
  | _ => exact hs.of_eq rfl rfl

theorem runOps_keeps_inv {s : State} (hs : s.Inv) (ops : List Operation) : (runOps ops s).Inv := by
  induction ops generalizing s with
  | nil => exact hs
  | cons op ops ih => exact ih (perform_keeps_inv hs op)

/-- An instruction of R22's list leaves a flag in `reg[15]`. -/
theorem reg_15_of_writesFlag {i : Instr} {s t : State} (hi : writesFlag i = true) (h : exec i s = .next t) :
    ∃ flag, t.reg 15 = flagByte flag := by
  cases i with
  | addReg x y | sub x y | shr x y | subn x y | shl x y => cases h; exact ⟨_, s.reg_writeResultAndFlag_flag x _ _⟩
  | drw x y n =>
    obtain ⟨rows, -, rfl⟩ := outcomeOf_map_next.mp h
    exact ⟨_, by rw [State.drawSprite, State.reg_advance, State.setFlag_eq, State.reg_setReg, if_pos rfl]⟩
  | _ => cases hi

/-- Settles O4: the invariant is carried along the schedule; the rest holds of any state. -/
theorem everyScheduleKeepsTheInvariant : Obligations.EveryScheduleKeepsTheInvariant := by
  unfold Obligations.EveryScheduleKeepsTheInvariant
  refine fun s ops hs => ⟨runOps_keeps_inv hs ops, Nat.le_of_lt_succ (runOps ops s).sp.isLt, fun i t hi h => ?flag⟩
  case flag =>
    obtain ⟨flag, hflag⟩ := reg_15_of_writesFlag hi h
    rw [hflag]
    exact State.flagByte_cases flag

end Sys2Proof.Machine
end

section
/-! O13, O15, O16, O39, O40, O53. Bytes that are stored and then read: by LoadProgram and by placing an instruction, by a block load
and by the next Fetch; and that the canonical form of a memory is unique (20_memory.md R52, R64; 43_index_memory.md R185, R187;
60_exceptions.md R254, R258). -/

namespace Sys2Proof.Machine

/-! ## The canonical form is unique -/

/-- An address that a canonical memory lists does not read as unlisted. -/
theorem Memory.read_head_ne {lo a : Nat} {v : Byte} {m : Memory} (h : Memory.wfFrom lo ((a, v) :: m) = true) :
    Memory.read ((a, v) :: m) a ≠ Memory.unlisted a := by
  simp only [Memory.wfFrom, Bool.and_eq_true, bne_iff_ne] at h
  obtain ⟨⟨-, hv⟩, -⟩ := h
  rwa [Memory.read, if_pos rfl]

theorem Memory.wfFrom_tail {lo a : Nat} {v : Byte} {m : Memory} (h : Memory.wfFrom lo ((a, v) :: m) = true) :
    Memory.wfFrom (a + 1) m = true := by
  simp only [Memory.wfFrom, Bool.and_eq_true] at h
  exact h.2

/-- From the lowest address that it lists, a canonical memory is canonical. -/
theorem Memory.wfFrom_head {lo a : Nat} {v : Byte} {m : Memory} (h : Memory.wfFrom lo ((a, v) :: m) = true) :
    Memory.wfFrom a ((a, v) :: m) = true := by
  simp only [Memory.wfFrom, Bool.and_eq_true, decide_eq_true_eq] at h ⊢
  obtain ⟨⟨⟨-, hsize⟩, hv⟩, hm⟩ := h
  exact ⟨⟨⟨Nat.le_refl a, hsize⟩, hv⟩, hm⟩

/-- Two canonical memories that read alike list no address below the other's first one. -/
theorem Memory.head_le {lo lo' a b : Nat} {v w : Byte} {m m' : Memory} (h : Memory.wfFrom lo ((a, v) :: m) = true)
    (h' : Memory.wfFrom lo' ((b, w) :: m') = true)
    (hread : ∀ c, Memory.read ((a, v) :: m) c = Memory.read ((b, w) :: m') c) : b ≤ a := by
  by_contra hlt
  exact Memory.read_head_ne h ((hread a).trans (Memory.read_of_wfFrom (Memory.wfFrom_head h') (Nat.lt_of_not_le hlt)))

theorem Memory.eq_of_read_eq {lo lo' : Nat} {m m' : Memory} (h : Memory.wfFrom lo m = true) (h' : Memory.wfFrom lo' m' = true)
    (hread : ∀ c, Memory.read m c = Memory.read m' c) : m = m' := by
  induction m generalizing lo lo' m' with
  | nil =>
    cases m' with
    | nil => rfl
    | cons cell m' => exact absurd (hread cell.1).symm (Memory.read_head_ne h')
  | cons cell m ih =>
    obtain ⟨a, v⟩ := cell
    cases m' with
    | nil => exact absurd (hread a) (Memory.read_head_ne h)
    | cons cell' m' =>
      obtain ⟨b, w⟩ := cell'
      obtain rfl : a = b := Nat.le_antisymm (Memory.head_le h' h fun c => (hread c).symm) (Memory.head_le h h' hread)
      have hv : v = w := by simpa [Memory.read] using hread a
      have htail (c : Nat) : Memory.read m c = Memory.read m' c := by
        by_cases hc : a = c
        · subst hc
          rw [Memory.read_of_wfFrom (Memory.wfFrom_tail h) (Nat.lt_succ_self a),
            Memory.read_of_wfFrom (Memory.wfFrom_tail h') (Nat.lt_succ_self a)]
        · simpa [Memory.read, hc] using hread c
      rw [hv, ih (Memory.wfFrom_tail h) (Memory.wfFrom_tail h') htail]

/-- Settles O16: by induction on the list, the first addresses of both lists being the least that do not read as unlisted. -/
theorem canonicalMemoriesThatReadAlikeAreEqual : Obligations.CanonicalMemoriesThatReadAlikeAreEqual := by
  unfold Obligations.CanonicalMemoriesThatReadAlikeAreEqual
  exact fun m m' hm hm' hread => Memory.eq_of_read_eq hm hm' hread

/-! ## What the next step runs -/

theorem step_of_decode_ok {s : State} {w : Word} {i : Instr} (hf : s.fetchWord = .ok w) (h : decodeWord w = .ok i) :
    step s = exec i s := by
  simp only [step, hf, h]

theorem decodeWord_of_decode_pair {first second : Byte} {i : Instr} {rest : List Byte}
    (h : decode [first, second] = .ok (i, rest)) : decodeWord (wordOfBytes first second) = .ok i := by
  rw [decode] at h
  cases hw : decodeWord (wordOfBytes first second) with
  | ok j => rw [hw] at h; cases h; rfl
  | error e => rw [hw] at h; cases h

theorem decodeWord_of_decode_pair_error {first second : Byte} {e : DecodeError} (h : decode [first, second] = .error e) :
    decodeWord (wordOfBytes first second) = .error e := by
  rw [decode] at h
  cases hw : decodeWord (wordOfBytes first second) with
  | ok j => rw [hw] at h; cases h
  | error e' => rw [hw] at h; cases h; rfl

/-- Settles O13: Fetch answers the word of the two bytes that `decode` is given. -/
theorem stepRunsTheDecodedInstruction : Obligations.StepRunsTheDecodedInstruction := by
  unfold Obligations.StepRunsTheDecodedInstruction
  refine fun s => ⟨fun hinside => ⟨fun i hd => ?runs, fun w hd => ?unknown⟩, fun hbeyond => ?bounds⟩
  case runs => exact step_of_decode_ok (State.fetchWord_of_le hinside) (decodeWord_of_decode_pair hd)
  case unknown =>
    have herror := decodeWord_of_decode_pair_error hd
    rw [step_of_decode_error (State.fetchWord_of_le hinside) herror]
    cases decodeWord_error herror
    rfl
  case bounds => simp only [step, State.fetchWord_of_lt hbeyond]

/-- Where a Fetch can succeed, the word's bytes are stored at `pc`. -/
theorem State.withFetchWord_of_le {s : State} (i : Instr) (h : s.pc.toNat + 1 ≤ 4095) :
    s.withFetchWord 16 (encodeWord i).toNat = s.storeBytes s.pc.toNat (encode i) := by
  rw [State.withFetchWord, tableWord_toNat, State.placeAtPc, if_pos (inBounds_iff.mpr (.inr (Nat.succ_le_succ h)))]
  rfl

/-- Fetch by what it reads. -/
theorem State.fetchWord_of_bytes {t : State} {a : Nat} {first second : Byte} (hpc : t.pc.toNat = a) (ha : a + 1 ≤ 4095)
    (hfirst : t.byteAt a = first) (hsecond : t.byteAt (a + 1) = second) : t.fetchWord = .ok (wordOfBytes first second) := by
  subst hpc hfirst hsecond
  exact State.fetchWord_of_le ha

/-- The bytes of an instruction stored at `pc` are the word that Fetch reads (R52, R55). -/
theorem fetchWord_storeBytes_encode {s : State} (i : Instr) (hm : s.mem.wf = true) (h : s.pc.toNat + 1 ≤ 4095) :
    (s.storeBytes s.pc.toNat (encode i)).fetchWord = .ok (encodeWord i) := by
  have hread := s.byteAt_storeBytes_inside (encode i) hm (Nat.succ_le_succ h)
  have hfetch := State.fetchWord_of_bytes (t := s.storeBytes s.pc.toNat (encode i)) rfl h
    (hread 0 Nat.zero_lt_two) (hread 1 Nat.one_lt_two)
  exact hfetch.trans (congrArg Except.ok (wordOfBytes_bytesOfWord (encodeWord i)))

/-- Settles O15. -/
theorem placedInstructionIsTheNextOneRun : Obligations.PlacedInstructionIsTheNextOneRun := by
  unfold Obligations.PlacedInstructionIsTheNextOneRun
  intro s i hm h
  rw [State.withFetchWord_of_le i h]
  exact ⟨step_of_decode_ok (fetchWord_storeBytes_encode i hm h) (decodeWord_encodeWord i),
    fun c hc => Component.agrees_storeBytes _ _ hc⟩

/-! ## Stored bytes read back -/

/-- Settles O53: the two clauses are the two sides of the limit on a ROM. -/
theorem loadProgramPlacesTheRomOrRefuses : Obligations.LoadProgramPlacesTheRomOrRefuses := by
  unfold Obligations.LoadProgramPlacesTheRomOrRefuses
  refine fun bytes s => ⟨fun hfits => ⟨_, if_pos (romWellFormed_iff.mpr hfits), fun hm i hi => ?placed, fun a ha => ?frame, rfl⟩,
    fun hlong => if_neg fun hrom => ?refused⟩
  case placed =>
    have hread := s.byteAt_storeBytes_inside bytes hm (Nat.add_le_add_left hfits 0x200) i hi
    rw [List.getElem?_eq_getElem hi, ← hread]
    rfl
  case frame => exact s.byteAt_storeBytes_outside bytes ha
  case refused => exact absurd (romWellFormed_iff.mp hrom) (Nat.not_le_of_lt hlong)

theorem le_of_exec_ldMemVx {x : Reg} {s t : State} (h : exec (.ldMemVx x) s = .next t) : s.index.toNat + x.val ≤ 4095 := by
  by_contra hlt
  rw [exec_ldMemVx_of_lt (Nat.lt_of_not_le hlt)] at h
  cases h

theorem le_of_exec_ldBVx {x : Reg} {s t : State} (h : exec (.ldBVx x) s = .next t) : s.index.toNat + 2 ≤ 4095 := by
  by_contra hlt
  rw [exec_ldBVx_of_lt x (Nat.lt_of_not_le hlt)] at h
  cases h

/-- What `FX55` stored, byte by byte. -/
theorem byteAt_of_exec_ldMemVx {x k : Reg} {s t : State} (hm : s.mem.wf = true) (h : exec (.ldMemVx x) s = .next t)
    (hk : k ≤ x) : t.byteAt (s.index.toNat + k.val) = s.reg k := by
  obtain ⟨t', ht', hstored, -⟩ := (blockStoreCopiesRegistersToMemory x s).1 (le_of_exec_ldMemVx h)
  cases h.symm.trans ht'
  exact hstored hm k hk

/-- Settles O39: the load reads the addresses that the store wrote. -/
theorem blockStoreThenLoadRestoresTheRegisters : Obligations.BlockStoreThenLoadRestoresTheRegisters := by
  unfold Obligations.BlockStoreThenLoadRestoresTheRegisters
  intro x s t u hm hstore hmem hindex
  have hfits := le_of_exec_ldMemVx hstore
  obtain ⟨r, hload, hreg, -⟩ := (blockLoadCopiesMemoryToRegisters x u).1 (hindex ▸ hfits)
  refine ⟨r, hload, fun q hq => ?_⟩
  calc r.reg q = u.byteAt (u.index.toNat + q.val) := by rw [hreg q, if_pos hq]
    _ = t.byteAt (s.index.toNat + q.val) := by rw [State.byteAt, State.byteAt, hmem, hindex]
    _ = s.reg q := byteAt_of_exec_ldMemVx hm hstore hq

/-! ## Stored bytes fetched -/

/-- A byte that stands in the memory is the one that a Fetch there reads. -/
theorem State.fetchSees_of_byteAt {t : State} {a : Nat} {b : Byte} (ha : a ≤ 4095) (hb : t.byteAt a = b) : t.FetchSees a b := by
  constructor
  · rintro rfl hinside
    exact ⟨_, hb ▸ State.fetchWord_of_le hinside⟩
  · rintro rfl
    exact ⟨_, hb ▸ State.fetchWord_of_le ha⟩

/-- Settles O40: what each of the three stores leaves at an address is what Fetch reads there. -/
theorem storedCodeIsSeenByTheNextFetch : Obligations.StoredCodeIsSeenByTheNextFetch := by
  unfold Obligations.StoredCodeIsSeenByTheNextFetch
  refine fun x s t hm => ⟨fun h => ⟨fun k hk => ?register, fun k j hj hjx hpc => ?registers⟩,
    fun h hundreds tens units hh ht hu => ?digits, fun bytes i b hlen hb => ?rom⟩
  case register =>
    have hfits := le_of_exec_ldMemVx h
    have hkx : k.val ≤ x.val := hk
    exact State.fetchSees_of_byteAt (by omega) (byteAt_of_exec_ldMemVx hm h hk)
  case registers =>
    have hfits := le_of_exec_ldMemVx h
    have hjx' : j.val ≤ x.val := hjx
    have hkx : k ≤ x := show k.val ≤ x.val by omega
    have hj' := byteAt_of_exec_ldMemVx hm h hjx
    rw [hj, ← Nat.add_assoc] at hj'
    exact State.fetchWord_of_bytes hpc (by omega) (byteAt_of_exec_ldMemVx hm h hkx) hj'
  case digits =>
    have hfits := le_of_exec_ldBVx h
    obtain ⟨t', ht', hstored, -⟩ := (bcdStoresThreeDigits x s).1 hfits
    cases h.symm.trans ht'
    obtain ⟨h0, h1, h2⟩ := hstored hm
    have h0 := BitVec.eq_of_toNat_eq (h0.trans hh.symm)
    have h1 := BitVec.eq_of_toNat_eq (h1.trans ht.symm)
    have h2 := BitVec.eq_of_toNat_eq (h2.trans hu.symm)
    exact ⟨State.fetchSees_of_byteAt (by omega) h0, State.fetchSees_of_byteAt (by omega) h1,
      State.fetchSees_of_byteAt (by omega) h2, fun hpc => State.fetchWord_of_bytes hpc (by omega) h0 h1,
      fun hpc => State.fetchWord_of_bytes hpc (by omega) h1 h2⟩
  case rom =>
    obtain ⟨t', ht', hplaced, -⟩ := (loadProgramPlacesTheRomOrRefuses bytes s).1 hlen
    obtain ⟨hi, -⟩ := List.getElem?_eq_some_iff.mp hb
    rw [ht']
    exact State.fetchSees_of_byteAt (by omega) (Option.some.inj ((hplaced hm i hi).trans hb))

end Sys2Proof.Machine
end

section
/-! O20, O21, O60. The return, on its own and after the call that it matches, and the jump to its own address (40_control_flow.md
R113, R117, R118; 60_exceptions.md R270). -/

namespace Sys2Proof.Machine

/-! ## The return -/

/-- A return whose pop succeeds goes on from the popped state at the popped word. -/
theorem exec_ret_of_ok {s t : State} {w : Word} (h : s.pop = .ok (w, t)) : exec .ret s = .next (t.setPc w) :=
  outcomeOf_map_next.mpr ⟨(w, t), h, rfl⟩

/-- A return whose pop fails ends in the pop's error. -/
theorem exec_ret_of_error {s : State} {f : Fault} (h : s.pop = .error f) : exec .ret s = .fault f :=
  outcomeOf_map_fault.mpr h

/-- The return from the slot below `sp`. -/
theorem exec_ret_of_sp_succ {s : State} {k : Fin 17} {w : Word} (hsp : s.sp.val = k.val + 1)
    (hslot : s.stack[k.val]? = some w) : exec .ret s = .next { s with pc := w, sp := k } :=
  exec_ret_of_ok (State.pop_of_sp_succ hsp hslot)

/-- Settles O20: the two clauses are the two outcomes of the pop. -/
theorem returnPopsTheProgramCounter : Obligations.ReturnPopsTheProgramCounter := by
  unfold Obligations.ReturnPopsTheProgramCounter
  refine fun s => ⟨fun k hsp => ?pops, fun hempty => exec_ret_of_error (State.pop_empty hempty)⟩
  case pops =>
    have hslot : s.stack[k.castSucc.val]? = some s.stack[k.val] := Vector.getElem?_eq_getElem k.isLt
    exact ⟨_, exec_ret_of_sp_succ hsp hslot, rfl, rfl, rfl⟩

/-- Settles O21: the call leaves its own address in the slot at its `sp`, which is the slot that the return pops. -/
theorem returnGoesBackToTheCallItself : Obligations.ReturnGoesBackToTheCallItself := by
  unfold Obligations.ReturnGoesBackToTheCallItself
  intro nnn s t u hcall hstack hsp
  obtain ⟨pushed, hpush, rfl⟩ := outcomeOf_map_next.mp hcall
  have hslot : pushed.stack[s.sp.val]? = some s.pc := pushAll_stack_first (ws := []) hpush rfl
  have hsucc : pushed.sp.val = s.sp.val + 1 := State.push_sp hpush
  rw [State.setPc_stack] at hstack
  rw [State.setPc_sp] at hsp
  exact ⟨_, exec_ret_of_sp_succ (hsp ▸ hsucc) (hstack ▸ hslot), rfl, rfl⟩

/-! ## The quiescent loop -/

/-- A step of the quiescent loop is a jump to the address it stands at. -/
theorem step_of_quiescent {s : State} (h : s.Quiescent) : step s = .next s := by
  obtain ⟨nnn, hfetch, hpc⟩ := h
  have htarget : addressOf nnn = s.pc := BitVec.eq_of_toNat_eq ((toNat_addressOf nnn).trans hpc.symm)
  rw [step_of_decode_ok hfetch (decodeWord_encodeWord _), exec_jp, htarget, State.setPc_self]

/-- Settles O60: by induction on the number of steps. -/
theorem quiescentLoopNeverChangesTheState : Obligations.QuiescentLoopNeverChangesTheState := by
  unfold Obligations.QuiescentLoopNeverChangesTheState
  intro s h n
  have hstep : step s = .next s := step_of_quiescent h
  have hcore : core.step s = .next s := hstep
  induction n with
  | zero => exact ⟨rfl, rfl⟩
  | succ n ih =>
    obtain ⟨hrun, hsafe⟩ := ih
    constructor
    · simpa only [Host.Core.run, hcore] using hrun
    · simpa only [runsSafely, hstep] using hsafe

end Sys2Proof.Machine
end

section
/-! O42, O43, O44, O45. The sprite engine: the rows that `DXYN` reads cover what `State.spriteCovers` says, so the loops are one
simultaneous XOR; and what follows for a second draw and for a sprite beyond an edge (44_display.md R202 to R207). -/

namespace Sys2Proof.Machine

variable (s : State)

/-! ## The rows of a sprite -/

/-- The bytes that `DXYN` reads, one per row (R202). -/
def State.spriteRows (n : Nat) : List Byte := (List.range n).map fun i => s.byteAt (s.index.toNat + i)

/-- The rows cover the pixels that the specification's predicate says (R205). -/
theorem rowsCover_spriteRows (x0 y0 n px py : Nat) :
    rowsCover (s.spriteRows n) x0 y0 px py = s.spriteCovers x0 y0 n px py := by
  have hlen : (s.spriteRows n).length = n := by simp [State.spriteRows]
  rw [rowsCover, State.spriteCovers, hlen, Bool.eq_iff_iff]
  simp only [Bool.and_eq_true, decide_eq_true_eq]
  refine and_congr_right fun hinside => ?_
  have hlt : py - y0 < n := by omega
  have hget : (s.spriteRows n).getD (py - y0) 0 = s.byteAt (s.index.toNat + (py - y0)) := by
    simp [State.spriteRows, hlt]
  rw [hget]

/-! ## The state after the draw -/

variable (x y : Reg) (rows : List Byte)

theorem State.drawSprite_disp :
    (s.drawSprite x y rows).disp = (blitRows (s.disp, false) (s.reg x).toNat (s.reg y).toNat rows).1 := by
  simp only [State.drawSprite, State.setFlag, State.advance_disp, State.setReg_disp, State.showDisplay_disp]

theorem State.reg_drawSprite (r : Reg) : (s.drawSprite x y rows).reg r =
    if r = 15 then flagByte (blitRows (s.disp, false) (s.reg x).toNat (s.reg y).toNat rows).2 else s.reg r := by
  simp only [State.drawSprite, State.setFlag_eq, State.reg_advance, State.reg_setReg, State.reg_showDisplay]

theorem State.drawSprite_redraw : (s.drawSprite x y rows).redraw = true := by
  simp only [State.drawSprite, State.setFlag, State.advance_redraw, State.setReg_redraw, State.showDisplay_redraw]

theorem State.drawSprite_eq : s.drawSprite x y rows = { s with
    regs := (s.drawSprite x y rows).regs, disp := (s.drawSprite x y rows).disp, redraw := (s.drawSprite x y rows).redraw,
    pc := s.pc + 2 } := by
  rfl

/-! ## The instruction -/

/-- The sprite's rows lie in the memory, or there are none (R202, R206). -/
theorem inBounds_of_sprite {s : State} {n : BitVec 4} (h : n.toNat = 0 ∨ s.index.toNat + n.toNat - 1 ≤ 4095) :
    inBounds s.index.toNat n.toNat = true := by
  have hsize : Config.memSize = 4096 := rfl
  exact inBounds_iff.mpr (by omega)

theorem exec_drw_of_le {s : State} (x y : Reg) {n : BitVec 4} (h : n.toNat = 0 ∨ s.index.toNat + n.toNat - 1 ≤ 4095) :
    exec (.drw x y n) s = .next (s.drawSprite x y (s.spriteRows n.toNat)) :=
  outcomeOf_map_next.mpr ⟨_, if_pos (inBounds_of_sprite h), rfl⟩

/-- Settles O45: the range of the rows, of which there is one at least, ends beyond the memory. -/
theorem spriteBeyondMemoryIsABoundsError : Obligations.SpriteBeyondMemoryIsABoundsError := by
  unfold Obligations.SpriteBeyondMemoryIsABoundsError
  intro x y n s hrows hbeyond
  refine outcomeOf_map_fault.mpr ?_
  obtain ⟨k, hk⟩ : ∃ k, n.toNat = k + 1 := ⟨n.toNat - 1, by omega⟩
  rw [State.memReadBytes, hk]
  exact checkBounds_of_lt _ (by omega : 4095 < s.index.toNat + k)

theorem le_of_exec_drw {x y : Reg} {n : BitVec 4} {s t : State} (h : exec (.drw x y n) s = .next t) :
    n.toNat = 0 ∨ s.index.toNat + n.toNat - 1 ≤ 4095 := by
  by_contra hbeyond
  rw [spriteBeyondMemoryIsABoundsError x y n s (by omega) (by omega)] at h
  cases h

/-! ## One simultaneous XOR -/

/-- Settles O42: the loops of the sprite engine, with the rows read as what the sprite covers. -/
theorem drawIsOneSimultaneousXor : Obligations.DrawIsOneSimultaneousXor := by
  unfold Obligations.DrawIsOneSimultaneousXor
  intro x y n s h
  have hcollision := blitRows_collision (s.reg x).toNat (s.spriteRows n.toNat) (s.reg y).toNat (s.disp, false)
  simp only [rowsCover_spriteRows, Bool.false_eq_true, false_or] at hcollision
  refine ⟨_, exec_drw_of_le x y h, fun px py hx hy => ?pixel, fun hhit => ?hit, fun hmiss => ?miss,
    s.drawSprite_redraw x y _, fun r hr => ?frame, s.drawSprite_eq x y _⟩
  case pixel => rw [s.drawSprite_disp, pixelAt_blitRows _ _ _ _ hx hy, rowsCover_spriteRows]
  case hit =>
    obtain ⟨px, py, hx, hy, hpixel, hcover⟩ := hhit
    rw [s.reg_drawSprite, if_pos rfl, hcollision.mpr ⟨px, py, hx, hy, hcover, hpixel⟩]
    rfl
  case miss =>
    have hno : (blitRows (s.disp, false) (s.reg x).toNat (s.reg y).toNat (s.spriteRows n.toNat)).2 = false := by
      refine Bool.eq_false_iff.mpr fun hyes => hmiss ?_
      obtain ⟨px, py, hx, hy, hcover, hpixel⟩ := hcollision.mp hyes
      exact ⟨px, py, hx, hy, hpixel, hcover⟩
    rw [s.reg_drawSprite, if_pos rfl, hno]
    rfl
  case frame => rw [s.reg_drawSprite, if_neg hr]

/-- A display is its pixels (R34). -/
theorem display_ext {d e : Display} (h : ∀ px py, px < 64 → py < 32 → pixelAt d px py = pixelAt e px py) : d = e := by
  refine BitVec.eq_of_getLsbD_eq fun i hi => ?_
  have hpixel := h (i % 64) (i / 64) (by omega) (by omega)
  have hflat : i % 64 + 64 * (i / 64) = i := Nat.mod_add_div i 64
  simpa only [pixelAt, Config.dispWidth, hflat] using hpixel

/-- What a sprite covers depends on the memory and `index` only. -/
theorem spriteCovers_congr {s u : State} (hmem : u.mem = s.mem) (hindex : u.index = s.index) :
    u.spriteCovers = s.spriteCovers := by
  unfold State.spriteCovers State.byteAt
  rw [hmem, hindex]

/-- Settles O43: a pixel XORed twice with the same bit is the pixel. -/
theorem drawingTwiceRestoresTheDisplay : Obligations.DrawingTwiceRestoresTheDisplay := by
  unfold Obligations.DrawingTwiceRestoresTheDisplay
  intro x y n s t u hdraw hdisp hmem hindex hx hy
  have hfits := le_of_exec_drw hdraw
  obtain ⟨t', ht', hfirst, -⟩ := drawIsOneSimultaneousXor x y n s hfits
  cases hdraw.symm.trans ht'
  obtain ⟨r, hr, hsecond, -⟩ := drawIsOneSimultaneousXor x y n u (hindex ▸ hfits)
  refine ⟨r, hr, display_ext fun px py hpx hpy => ?_⟩
  rw [hsecond px py hpx hpy, hdisp, hfirst px py hpx hpy, spriteCovers_congr hmem hindex, hx, hy, Bool.xor_assoc,
    Bool.xor_self, Bool.xor_false]

/-- A sprite that starts beyond an edge, or has no rows, covers no pixel of the display (R203). -/
theorem spriteCovers_beyond_edge {s : State} {x0 y0 n px py : Nat} (h : 64 ≤ x0 ∨ 32 ≤ y0 ∨ n = 0) (hx : px < 64)
    (hy : py < 32) : s.spriteCovers x0 y0 n px py = false := by
  refine Bool.eq_false_iff.mpr fun hcover => ?_
  simp only [State.spriteCovers, Bool.and_eq_true, decide_eq_true_eq] at hcover
  omega

/-- Settles O44. -/
theorem spriteStartedBeyondAnEdgeDrawsNothing : Obligations.SpriteStartedBeyondAnEdgeDrawsNothing := by
  unfold Obligations.SpriteStartedBeyondAnEdgeDrawsNothing
  intro x y n s hfits hedge
  obtain ⟨t, ht, hpixel, -, hmiss, hredraw, -⟩ := drawIsOneSimultaneousXor x y n s hfits
  refine ⟨t, ht, display_ext fun px py hx hy => ?same, hmiss ?none, hredraw⟩
  case same => rw [hpixel px py hx hy, spriteCovers_beyond_edge hedge hx hy, Bool.xor_false]
  case none =>
    rintro ⟨px, py, hx, hy, -, hcover⟩
    rw [spriteCovers_beyond_edge hedge hx hy] at hcover
    cases hcover

end Sys2Proof.Machine
end

section
/-! O54, O55, O56. Every instruction completes or raises the error of its condition, and writes its own parts only; so do the
operations of the host (60_exceptions.md R241, R248; 10_state.md R43). -/

namespace Sys2Proof.Machine

/-! ## Completion and errors -/

/-- An instruction with an error condition, free of it where `p` holds: it completes there, and raises its error elsewhere. -/
theorem completes_or_raises {i : Instr} {s : State} {e : Fault} {p : Prop} (hfree : errorFree i s = true ↔ p)
    (herror : errorOf i s = if errorFree i s then none else some e) (hcompletes : p → ∃ t, exec i s = .next t)
    (hraises : ¬p → exec i s = .fault e) :
    (errorOf i s = none → ∃ t, exec i s = .next t) ∧ ∀ f, errorOf i s = some f → exec i s = .fault f := by
  rw [herror]
  split
  case isTrue h => exact ⟨fun _ => hcompletes (hfree.mp h), nofun⟩
  case isFalse h =>
    refine ⟨nofun, fun f hf => ?_⟩
    cases hf
    exact hraises (mt hfree.mpr h)

/-- An instruction that raises no error. -/
theorem completes {i : Instr} {s t : State} (hfree : errorFree i s = true) (ht : exec i s = .next t) :
    (errorOf i s = none → ∃ t, exec i s = .next t) ∧ ∀ f, errorOf i s = some f → exec i s = .fault f :=
  ⟨fun _ => ⟨t, ht⟩, fun f hf => by simp [errorOf, hfree] at hf⟩

/-- The key wait by the lowest pressed key: it waits without one (R224). -/
theorem exec_ldVxK (x : Reg) (s : State) : exec (.ldVxK x) s =
    .next (s.lowestKey.elim s fun k => (s.setReg x (BitVec.ofNat 8 k.val)).advance 2) := by
  simp only [exec, execLdVxK]
  cases s.lowestKey <;> rfl

/-- Settles O54. -/
theorem everyInstructionCompletesOrRaisesItsError : Obligations.EveryInstructionCompletesOrRaisesItsError := by
  unfold Obligations.EveryInstructionCompletesOrRaisesItsError
  intro i s
  cases i with
  | ret =>
    refine completes_or_raises decide_eq_true_iff rfl (fun h => ?_) fun h => ?_
    · obtain ⟨w, t, hpop⟩ := State.pop_some (Nat.ne_of_gt h)
      exact ⟨_, exec_ret_of_ok hpop⟩
    · have hempty : s.sp.val = 0 := by omega
      rw [hempty]
      exact exec_ret_of_error (State.pop_empty hempty)
  | call nnn =>
    refine completes_or_raises decide_eq_true_iff rfl (fun h => ?_) fun h => ?_
    · obtain ⟨t, hpush⟩ := State.push_some s.pc h
      exact ⟨_, exec_call_of_ok nnn hpush⟩
    · have hfull : s.sp.val = 16 := by have := s.sp.isLt; omega
      rw [hfull]
      exact exec_call_of_error nnn (State.push_full hfull)
  | drw x y n =>
    exact completes_or_raises (by simp only [errorFree, Bool.or_eq_true, beq_iff_eq, decide_eq_true_iff]) rfl
      (fun h => ⟨_, exec_drw_of_le x y h⟩) fun h => spriteBeyondMemoryIsABoundsError x y n s (by omega) (by omega)
  | ldBVx x =>
    exact completes_or_raises decide_eq_true_iff rfl (fun h => ⟨_, exec_ldBVx_of_le x h⟩)
      fun h => exec_ldBVx_of_lt x (Nat.lt_of_not_le h)
  | ldMemVx x =>
    exact completes_or_raises decide_eq_true_iff rfl (fun h => ⟨_, exec_ldMemVx_of_le h⟩)
      fun h => exec_ldMemVx_of_lt (Nat.lt_of_not_le h)
  | ldVxMem x =>
    exact completes_or_raises decide_eq_true_iff rfl (fun h => ⟨_, exec_ldVxMem_of_le h⟩)
      fun h => exec_ldVxMem_of_lt (Nat.lt_of_not_le h)
  | ldVxK x => exact completes rfl (exec_ldVxK x s)
  | _ => exact completes rfl rfl

/-! ## The frame of an instruction -/

theorem State.length_of_memReadBytes {s : State} {a n : Nat} {bytes : List Byte} (h : s.memReadBytes a n = .ok bytes) :
    bytes.length = n := by
  unfold State.memReadBytes checkBounds at h
  split at h <;> cases h
  rw [List.length_map, List.length_range]

namespace Component

variable {c : Component} {s t : State}

/-- A register written, then `advance`. -/
theorem agrees_setReg_advance {x : Reg} (v : Byte) (k : Word) (h : (c == .reg x) = false) (hpc : c ≠ .pc) :
    c.Agrees s ((s.setReg x v).advance k) :=
  (agrees_setReg v (ne_of_beq_false h)).trans (agrees_advance k hpc)

/-- `index` written, then `advance`. -/
theorem agrees_setIndex_advance (v : Word) (k : Word) (h : (c == .index) = false) (hpc : c ≠ .pc) :
    c.Agrees s ((s.setIndex v).advance k) :=
  (agrees_setIndex v (ne_of_beq_false h)).trans (agrees_advance k hpc)

/-- The result and the flag of an ALU instruction. -/
theorem agrees_result_and_flag {x : Reg} (v : Byte) (f : Bool) (h : (c == .reg x || c == .reg 15) = false) (hpc : c ≠ .pc) :
    c.Agrees s (s.writeResultAndFlag x v f) := by
  obtain ⟨hx, h15⟩ := Bool.or_eq_false_iff.mp h
  exact agrees_writeResultAndFlag v f (ne_of_beq_false hx) (ne_of_beq_false h15) hpc

/-- Bytes stored under a check, then `advance`. -/
theorem agrees_of_store {a : Nat} {bytes : List Byte}
    (h : outcomeOf ((s.memWriteBytes a bytes).map fun u => u.advance 2) = .next t)
    (hbytes : c.isByteIn a bytes.length = false) (hpc : c ≠ .pc) : c.Agrees s t := by
  obtain ⟨u, hu, rfl⟩ := outcomeOf_map_next.mp h
  obtain rfl := State.memWriteBytes_ok hu
  exact (agrees_storeBytes a bytes hbytes).trans (agrees_advance 2 hpc)

theorem agrees_drawSprite (x y : Reg) (rows : List Byte) (h : (c.isPixel || c == .redraw || c == .reg 15) = false)
    (hpc : c ≠ .pc) : c.Agrees s (s.drawSprite x y rows) := by
  simp only [Bool.or_eq_false_iff] at h
  obtain ⟨⟨hpixel, hredraw⟩, h15⟩ := h
  exact ((agrees_showDisplay _ hpixel (ne_of_beq_false hredraw)).trans (agrees_setFlag _ (ne_of_beq_false h15))).trans
    (agrees_advance 2 hpc)

end Component

open Component

/-- Settles O55: each instruction is a chain of updates, and the frame a chain of theirs. -/
theorem instructionsWriteOnlyTheirParts : Obligations.InstructionsWriteOnlyTheirParts := by
  unfold Obligations.InstructionsWriteOnlyTheirParts
  intro i s t c h hpc hw
  cases i with
  | cls =>
    cases h
    obtain ⟨hpixel, hredraw⟩ := Bool.or_eq_false_iff.mp hw
    exact (agrees_showDisplay 0 hpixel (ne_of_beq_false hredraw)).trans (agrees_advance 2 hpc)
  | ret =>
    obtain ⟨⟨w, u⟩, hpop, rfl⟩ := outcomeOf_map_next.mp h
    exact (agrees_pop hpop (ne_of_beq_false hw)).trans (agrees_setPc w hpc)
  | jp nnn | jpV0 nnn => cases h; exact agrees_setPc _ hpc
  | call nnn =>
    obtain ⟨u, hpush, rfl⟩ := outcomeOf_map_next.mp h
    obtain ⟨hsp, hslot⟩ := Bool.or_eq_false_iff.mp hw
    exact (agrees_push hpush (ne_of_beq_false hsp) hslot).trans (agrees_setPc _ hpc)
  | seImm x nn | sneImm x nn | seReg x y | sneReg x y | skp x | sknp x => cases h; exact agrees_skipIf _ hpc
  | ldImm x nn | addImm x nn | ldReg x y | orReg x y | andReg x y | xorReg x y | ldVxDt x =>
    cases h; exact agrees_setReg_advance _ 2 hw hpc
  | addReg x y | sub x y | shr x y | subn x y | shl x y => cases h; exact agrees_result_and_flag _ _ hw hpc
  | ldI nnn | addIVx x | ldFVx x => cases h; exact agrees_setIndex_advance _ 2 hw hpc
  | rnd x nn =>
    cases h
    obtain ⟨hx, hdraws⟩ := Bool.or_eq_false_iff.mp hw
    exact (agrees_drawn (ne_of_beq_false hdraws)).trans (agrees_setReg_advance _ 2 hx hpc)
  | drw x y n =>
    obtain ⟨rows, -, rfl⟩ := outcomeOf_map_next.mp h
    exact agrees_drawSprite x y rows hw hpc
  | ldVxK x =>
    rw [exec_ldVxK] at h
    cases h
    cases s.lowestKey with
    | none => exact Agrees.refl c s
    | some k => exact agrees_setReg_advance _ 2 hw hpc
  | ldDtVx x => cases h; exact (agrees_setDt _ (ne_of_beq_false hw)).trans (agrees_advance 2 hpc)
  | ldStVx x => cases h; exact (agrees_setSt _ (ne_of_beq_false hw)).trans (agrees_advance 2 hpc)
  | ldBVx x => exact agrees_of_store h hw hpc
  | ldMemVx x => exact agrees_of_store h ((s.regsUpTo_length x).symm ▸ hw) hpc
  | ldVxMem x =>
    obtain ⟨bytes, hbytes, rfl⟩ := outcomeOf_map_next.mp h
    have hlen := State.length_of_memReadBytes hbytes
    refine (agrees_setRegsFrom bytes fun r hr => ?_).trans (agrees_advance 2 hpc)
    rw [hr, mayWrite, Component.isRegUpTo, decide_eq_false_iff_not] at hw
    have hlt : x.val < r.val := Nat.lt_of_not_le hw
    omega

/-! ## The frame of a host operation -/

/-- SetKey writes that key and no other (R257). -/
@[simp] theorem State.keyDown_withKey (s : State) (k j : Key) (pressed : Bool) :
    (s.withKey k pressed).keyDown j = if j = k then pressed else s.keyDown j := by
  simp [State.keyDown, Vector.getElem_set, Fin.ext_iff, eq_comm]

namespace Component

variable {c : Component} {s : State}

theorem agrees_ticked (hdt : c ≠ .dt) (hst : c ≠ .st) : c.Agrees s s.ticked :=
  (agrees_setDt (tick s.dt) hdt).trans (agrees_setSt (tick s.st) hst)

theorem agrees_redrawTaken (h : c ≠ .redraw) : c.Agrees s s.redrawTaken := by
  cases c
  case redraw => exact absurd rfl h
  all_goals exact Eq.refl _

theorem agrees_withKey {k : Key} (pressed : Bool) (h : c ≠ .key k) : c.Agrees s (s.withKey k pressed) := by
  cases c
  case key j => exact (s.keyDown_withKey k j pressed).trans (if_neg fun hj => h (congrArg Component.key hj))
  all_goals exact Eq.refl _

end Component

/-- Settles O56: the operations that are left run no instruction, and each is one update or none. -/
theorem hostOperationsWriteOnlyTheirParts : Obligations.HostOperationsWriteOnlyTheirParts := by
  unfold Obligations.HostOperationsWriteOnlyTheirParts
  intro op s c hw
  cases op with
  | initialise | decodeExecute w rnd | step rnd => cases hw
  | loadProgram bytes =>
    simp only [perform, State.loadProgram]
    split
    · exact agrees_storeBytes _ bytes hw
    · exact Agrees.refl c s
  | fetch => rw [perform_fetch_state]; exact Agrees.refl c s
  | tickTimers =>
    obtain ⟨hdt, hst⟩ := Bool.or_eq_false_iff.mp hw
    exact agrees_ticked (ne_of_beq_false hdt) (ne_of_beq_false hst)
  | takeRedrawFlag => exact agrees_redrawTaken (ne_of_beq_false hw)
  | setKey k pressed => exact agrees_withKey pressed (ne_of_beq_false hw)
  | snapshotDisplay | snapshotRegisters | snapshotSoundTimer => exact Agrees.refl c s

end Sys2Proof.Machine
end

section
/-! O26, O28, O30, O31, O33, O35. The instructions on registers whose effect is one number: the key that a register selects, the
move and logic operations, the differences and shifts with their flags, the random byte of the machine's own step, and the address
of a glyph (41_skips.md R135 to R137; 42_load_alu.md R153 to R166; 43_index_memory.md R183). -/

namespace Sys2Proof.Machine

/-! ## The key skips -/

theorem exec_skp (x : Reg) (s : State) : exec (.skp x) s = .next (s.skipIf (s.keyDown (s.keyOperand x))) := rfl

theorem exec_sknp (x : Reg) (s : State) : exec (.sknp x) s = .next (s.skipIf (!s.keyDown (s.keyOperand x))) := rfl

/-- The key mask is the remainder modulo 16 (R137). -/
theorem State.keyOperand_val (s : State) (x : Reg) : (s.keyOperand x).val = (s.reg x).toNat % 16 := by
  have hmask : (s.reg x &&& Config.keyIndexMask).toNat = (s.reg x).toNat % 16 :=
    (BitVec.toNat_and ..).trans (Nat.and_two_pow_sub_one_eq_mod (s.reg x).toNat 4)
  rw [State.keyOperand, hmask]
  exact Nat.mod_mod _ 16

/-- Settles O26: the two clauses are the two cases of the selected key. -/
theorem keySkipsTestTheLowNibble : Obligations.KeySkipsTestTheLowNibble := by
  unfold Obligations.KeySkipsTestTheLowNibble
  intro x k s hk
  obtain rfl : s.keyOperand x = k := Fin.ext ((s.keyOperand_val x).trans hk)
  refine ⟨fun hdown => ⟨exec_skip_taken (exec_skp x s) hdown, exec_skip_not_taken (exec_sknp x s) ?_⟩,
    fun hup => ⟨exec_skip_not_taken (exec_skp x s) hup, exec_skip_taken (exec_sknp x s) ?_⟩⟩
  · rw [hdown, Bool.not_true]
  · rw [hup, Bool.not_false]

/-! ## Moves and logic -/

theorem exec_ldReg (x y : Reg) (s : State) : exec (.ldReg x y) s = .next ((s.setReg x (s.reg y)).advance 2) := rfl

theorem exec_orReg (x y : Reg) (s : State) : exec (.orReg x y) s = .next ((s.setReg x (s.reg x ||| s.reg y)).advance 2) := rfl

theorem exec_andReg (x y : Reg) (s : State) : exec (.andReg x y) s = .next ((s.setReg x (s.reg x &&& s.reg y)).advance 2) := rfl

theorem exec_xorReg (x y : Reg) (s : State) : exec (.xorReg x y) s = .next ((s.setReg x (s.reg x ^^^ s.reg y)).advance 2) := rfl

/-- An instruction that writes one register and advances, with a claim about the written byte. -/
theorem writes_one_register {i : Instr} {s : State} {x : Reg} {v : Byte} {p : Byte → Prop}
    (hexec : exec i s = .next ((s.setReg x v).advance 2)) (hp : p v) :
    ∃ t, exec i s = .next t ∧ p (t.reg x) ∧ (∀ r, r ≠ x → t.reg r = s.reg r) ∧
      t = { s with regs := t.regs, pc := s.pc + 2 } :=
  ⟨_, hexec, (s.reg_setReg_advance_same x v 2).symm ▸ hp, fun _ hr => s.reg_setReg_advance_of_ne v 2 hr, rfl⟩

/-- Settles O28. -/
theorem moveAndLogicOperations : Obligations.MoveAndLogicOperations := by
  unfold Obligations.MoveAndLogicOperations
  exact fun x y s => ⟨writes_one_register (p := (· = s.reg y)) (exec_ldReg x y s) rfl,
    writes_one_register (p := fun v => ∀ k, k < 8 → v.getLsbD k = ((s.reg x).getLsbD k || (s.reg y).getLsbD k))
      (exec_orReg x y s) fun _ _ => BitVec.getLsbD_or,
    writes_one_register (p := fun v => ∀ k, k < 8 → v.getLsbD k = ((s.reg x).getLsbD k && (s.reg y).getLsbD k))
      (exec_andReg x y s) fun _ _ => BitVec.getLsbD_and,
    writes_one_register (p := fun v => ∀ k, k < 8 → v.getLsbD k = ((s.reg x).getLsbD k ^^ (s.reg y).getLsbD k))
      (exec_xorReg x y s) fun _ _ => BitVec.getLsbD_xor⟩

/-! ## Differences and shifts -/

theorem exec_sub (x y : Reg) (s : State) :
    exec (.sub x y) s = .next (s.writeResultAndFlag x (s.reg x - s.reg y) (noBorrowFlag (s.reg x) (s.reg y))) := rfl

theorem exec_subn (x y : Reg) (s : State) :
    exec (.subn x y) s = .next (s.writeResultAndFlag x (s.reg y - s.reg x) (noBorrowFlag (s.reg y) (s.reg x))) := rfl

theorem exec_shr (x y : Reg) (s : State) :
    exec (.shr x y) s = .next (s.writeResultAndFlag x (s.reg x >>> 1) (lowBitFlag (s.reg x))) := rfl

theorem exec_shl (x y : Reg) (s : State) :
    exec (.shl x y) s = .next (s.writeResultAndFlag x (s.reg x <<< 1) (highBitFlag (s.reg x))) := rfl

/-- An instruction that writes a result and a flag, with a claim about each. -/
theorem writes_result_and_flag {i : Instr} {s : State} {x : Reg} {v : Byte} {f : Bool} {p q : Byte → Prop}
    (hexec : exec i s = .next (s.writeResultAndFlag x v f)) (hp : p v) (hq : q (flagByte f)) :
    ∃ t, exec i s = .next t ∧ (x ≠ 15 → p (t.reg x)) ∧ q (t.reg 15) ∧
      (∀ r, r ≠ x → r ≠ 15 → t.reg r = s.reg r) ∧ t = { s with regs := t.regs, pc := s.pc + 2 } :=
  ⟨_, hexec, fun hx => (s.reg_writeResultAndFlag_result v f hx).symm ▸ hp, (s.reg_writeResultAndFlag_flag x v f).symm ▸ hq,
    fun _ hx h15 => s.reg_writeResultAndFlag_other v f hx h15, s.writeResultAndFlag_eq x v f⟩

theorem toNat_sub_byte (a b : Byte) : ((a - b).toNat : Int) = ((a.toNat : Int) - b.toNat) % 256 := by
  rw [BitVec.toNat_sub]
  omega

/-- Settles O30. -/
theorem subtractWithNoBorrowFlag : Obligations.SubtractWithNoBorrowFlag := by
  unfold Obligations.SubtractWithNoBorrowFlag
  exact fun x y s =>
    ⟨writes_result_and_flag (p := fun v => (v.toNat : Int) = ((s.reg x).toNat - (s.reg y).toNat : Int) % 256)
      (q := (· = if (s.reg y).toNat ≤ (s.reg x).toNat then 1 else 0)) (exec_sub x y s) (toNat_sub_byte ..) (flagByte_decide _),
    writes_result_and_flag (p := fun v => (v.toNat : Int) = ((s.reg y).toNat - (s.reg x).toNat : Int) % 256)
      (q := (· = if (s.reg x).toNat ≤ (s.reg y).toNat then 1 else 0)) (exec_subn x y s) (toNat_sub_byte ..) (flagByte_decide _)⟩

theorem toNat_lowBitFlag (a : Byte) : (flagByte (lowBitFlag a)).toNat = a.toNat % 2 := by
  revert a; decide

theorem toNat_highBitFlag (a : Byte) : (flagByte (highBitFlag a)).toNat = a.toNat / 128 := by
  revert a; decide

theorem toNat_shr_one (a : Byte) : (a >>> 1).toNat = a.toNat / 2 := by
  rw [BitVec.toNat_ushiftRight, Nat.shiftRight_eq_div_pow, Nat.pow_one]

theorem toNat_shl_one (a : Byte) : (a <<< 1).toNat = a.toNat * 2 % 256 := by
  rw [BitVec.toNat_shiftLeft, Nat.shiftLeft_eq, Nat.pow_one]

/-- Settles O31. -/
theorem shiftsInPlaceWithTheBitMovedOut : Obligations.ShiftsInPlaceWithTheBitMovedOut := by
  unfold Obligations.ShiftsInPlaceWithTheBitMovedOut
  exact fun x y s =>
    ⟨writes_result_and_flag (p := fun v => v.toNat = (s.reg x).toNat / 2) (q := fun v => v.toNat = (s.reg x).toNat % 2)
      (exec_shr x y s) (toNat_shr_one _) (toNat_lowBitFlag _),
    writes_result_and_flag (p := fun v => v.toNat = (s.reg x).toNat * 2 % 256) (q := fun v => v.toNat = (s.reg x).toNat / 128)
      (exec_shl x y s) (toNat_shl_one _) (toNat_highBitFlag _)⟩

/-! ## The random byte and the glyph -/

theorem exec_rnd (x : Reg) (nn : Byte) (s : State) :
    exec (.rnd x nn) s = .next ((s.drawn.setReg x (s.nextRnd &&& nn)).advance 2) := rfl

/-- Settles O33. -/
theorem randomInstructionDrawsOneFreeByte : Obligations.RandomInstructionDrawsOneFreeByte := by
  unfold Obligations.RandomInstructionDrawsOneFreeByte
  refine fun x nn s => ⟨_, exec_rnd x nn s, ?masked, fun r hr => ?frame, rfl, rfl⟩
  case masked => exact s.drawn.reg_setReg_advance_same x _ 2
  case frame => exact s.drawn.reg_setReg_advance_of_ne _ 2 hr

theorem exec_ldFVx (x : Reg) (s : State) : exec (.ldFVx x) s = .next ((s.setIndex (s.glyphAddr x)).advance 2) := rfl

/-- Five times a byte needs no mask (R183). -/
theorem State.glyphAddr_toNat (s : State) (x : Reg) : (s.glyphAddr x).toNat = 5 * (s.reg x).toNat := by
  have hlt := (s.reg x).isLt
  rw [State.glyphAddr, toNat_mask12, BitVec.toNat_mul, toNat_wide]
  simp only [Config.glyphBytes, BitVec.toNat_ofNat]
  omega

/-- After reset the font stands at address 0 (R32, R41). -/
theorem reset_byteAt_font {a : Nat} (h : a < 0x50) : some (State.reset.byteAt a) = Config.fontData[a]? := by
  have hfont : a < Config.fontData.length := h
  rw [List.getElem?_eq_getElem hfont]
  refine congrArg some ((Memory.unlisted_eq a).trans ?_)
  rw [List.getD_eq_getElem?_getD, List.getElem?_eq_getElem hfont, Option.getD_some]

/-- Settles O35. -/
theorem fontAddressIsFiveTimesTheRegister : Obligations.FontAddressIsFiveTimesTheRegister := by
  unfold Obligations.FontAddressIsFiveTimesTheRegister
  refine fun x s => ⟨_, exec_ldFVx x s, s.glyphAddr_toNat x, rfl, fun hdigit row hrow => ?glyph⟩
  case glyph =>
    rw [State.advance_index, State.setIndex_index, s.glyphAddr_toNat]
    exact reset_byteAt_font (by omega)

end Sys2Proof.Machine
end

section
/-! O1, O48, O51, O52. The state after reset, and the operations of the host around it: Initialize, SetKey and the key wait, the
snapshots (10_state.md R41; 45_timers_keys.md R224 to R226; 60_exceptions.md R251, R257, R261). -/

namespace Sys2Proof.Machine

/-! ## Reset -/

/-- Settles O1: the components are evaluated; a byte of memory is one of the font or beyond it. -/
theorem resetStateValues : Obligations.ResetStateValues := by
  unfold Obligations.ResetStateValues
  refine ⟨rfl, rfl, rfl, rfl, rfl, rfl, ?registers, ?slots, ?keys, fun x y _ _ => pixelAt_zero x y,
    fun a ha _ => Memory.unlisted_above ha, fun a ha => reset_byteAt_font ha⟩
  case registers => exact fun r => Vector.getElem_replicate r.isLt
  case slots => exact fun k => Vector.getElem_replicate k.isLt
  case keys => exact fun k => Vector.getElem_replicate k.isLt

/-- Settles O52. -/
theorem initializeGivesTheResetState : Obligations.InitializeGivesTheResetState := by
  unfold Obligations.InitializeGivesTheResetState
  exact fun s => rfl

/-! ## Keys and snapshots -/

/-- Settles O51. -/
theorem setKeyAndSnapshots : Obligations.SetKeyAndSnapshots := by
  unfold Obligations.SetKeyAndSnapshots
  exact fun k pressed s => ⟨⟨_, rfl, fun j => s.keyDown_withKey k j pressed, rfl⟩, rfl, rfl, rfl⟩

/-- DecodeExecute of a word whose instruction waits marks the answer (R226, R253). -/
theorem State.decodeExecute_of_waits {s t : State} {w : Word} {i : Instr} {rnd : Byte} (hd : decodeWord w = .ok i)
    (hx : execWithRnd rnd i s = .next t) (hwait : waitsIn i s = true) : s.decodeExecute w rnd = (.waiting, t) := by
  simp [State.decodeExecute, hd, hx, hwait]

theorem waitsIn_ldVxK (x : Reg) (s : State) : waitsIn (.ldVxK x) s = s.lowestKey.isNone := rfl

/-- Settles O48: the two clauses are the two cases of the lowest pressed key. -/
theorem keyWaitStoresTheLowestKeyOrChangesNothing : Obligations.KeyWaitStoresTheLowestKeyOrChangesNothing := by
  unfold Obligations.KeyWaitStoresTheLowestKeyOrChangesNothing
  refine fun x rnd s => ⟨fun hnone => ?waits, fun k hk hbelow => ?stores⟩
  case waits =>
    have hkey := State.lowestKey_eq_none.mpr hnone
    have hexec : exec (.ldVxK x) s = .next s := by rw [exec_ldVxK, hkey]; rfl
    exact ⟨hexec, State.decodeExecute_of_waits (decodeWord_encodeWord _) hexec (by rw [waitsIn_ldVxK, hkey]; rfl)⟩
  case stores =>
    have hkey := State.lowestKey_eq_some hk hbelow
    have hexec : exec (.ldVxK x) s = .next ((s.setReg x (BitVec.ofNat 8 k.val)).advance 2) := by rw [exec_ldVxK, hkey]; rfl
    refine ⟨_, hexec, State.decodeExecute_of_next (decodeWord_encodeWord _) hexec (by rw [waitsIn_ldVxK, hkey]; rfl), ?_,
      fun r hr => s.reg_setReg_advance_of_ne _ 2 hr, rfl⟩
    have hlt := k.isLt
    rw [s.reg_setReg_advance_same, BitVec.toNat_ofNat]
    omega

end Sys2Proof.Machine
end

section
/-! O58, O59. Every instruction run on the state with another sound timer, and with another value in a register that it does not
read (10_state.md R22, R29, R43): it answers the same, but for the value that was exchanged where the instruction keeps it. -/

namespace Sys2Proof.Machine

/-! ## An update apart from memory and stack -/

/-- The update neither changes the memory and the stack nor looks at them. -/
structure ApartFromMemoryAndStack (f : State → State) : Prop where
  mem : ∀ s, (f s).mem = s.mem
  stack : ∀ s, (f s).stack = s.stack
  sp : ∀ s, (f s).sp = s.sp
  withMem : ∀ s m, f { s with mem := m } = { f s with mem := m }
  withStack : ∀ s k p, f { s with stack := k, sp := p } = { f s with stack := k, sp := p }

theorem apartFromMemoryAndStack_setSt (v : Byte) : ApartFromMemoryAndStack (·.setSt v) :=
  ⟨fun _ => rfl, fun _ => rfl, fun _ => rfl, fun _ _ => rfl, fun _ _ _ => rfl⟩

theorem apartFromMemoryAndStack_setReg (r : Reg) (v : Byte) : ApartFromMemoryAndStack (·.setReg r v) :=
  ⟨fun _ => rfl, fun _ => rfl, fun _ => rfl, fun _ _ => rfl, fun _ _ _ => rfl⟩

namespace ApartFromMemoryAndStack

variable {f : State → State} (hf : ApartFromMemoryAndStack f) (s : State)

include hf

theorem push (v : Word) : (f s).push v = (s.push v).map f := by
  have hsp := hf.sp s
  by_cases h : s.sp.val < 16
  · obtain ⟨t, ht⟩ := State.push_some v h
    obtain ⟨_, rfl⟩ := State.push_ok_iff.mp ht
    rw [ht]
    refine State.push_ok_iff.mpr ⟨hsp ▸ h, ?_⟩
    rw [hf.withStack]
    simp only [hf.stack, hsp]
  · have hfull : s.sp.val = 16 := by omega
    rw [State.push_full hfull, State.push_full (hsp ▸ hfull)]
    rfl

theorem pop : (f s).pop = s.pop.map fun popped => (popped.1, f popped.2) := by
  have hsp := hf.sp s
  by_cases h : s.sp.val = 0
  · rw [State.pop_empty h, State.pop_empty (hsp ▸ h)]
    rfl
  · obtain ⟨w, t, ht⟩ := State.pop_some h
    obtain ⟨_, hbelow, rfl, rfl⟩ := State.pop_ok_iff.mp ht
    rw [ht]
    refine State.pop_ok_iff.mpr ⟨hsp ▸ h, hsp ▸ hbelow, ?_, ?_⟩
    · simp only [hf.stack, hsp]
    · refine (hf.withStack s s.stack _).trans ?_
      simp only [← hf.stack s, hsp]

theorem memWriteBytes (a : Nat) (bytes : List Byte) : (f s).memWriteBytes a bytes = (s.memWriteBytes a bytes).map f := by
  have hstore : (f s).storeBytes a bytes = f (s.storeBytes a bytes) := by
    rw [State.storeBytes, hf.mem]
    exact (hf.withMem s _).symm
  unfold State.memWriteBytes checkBounds
  rw [hstore]
  split <;> rfl

end ApartFromMemoryAndStack

/-- An instruction whose operation may fail, on an updated state: it is enough that the operation answers the same there but for
what `f` changes, and that the rest of the instruction ends in the state updated by `k`. -/
theorem outcomeOf_map_mapNext {α : Type} {r r' : Except Fault α} {g g' : α → State} {k : State → State} (f : α → α)
    (hr : r' = r.map f) (hg : ∀ a, g' (f a) = k (g a)) :
    outcomeOf (r'.map g') = mapNext k (outcomeOf (r.map g)) := by
  subst hr
  cases r with
  | error e => rfl
  | ok a => exact congrArg Host.Outcome.next (hg a)

/-! ## The sound timer -/

/-- `st` after an instruction that completes, from the `st` before it. -/
def stAfter (i : Instr) (s : State) (st : Byte) : Byte :=
  match i with
  | .ldStVx x => s.reg x
  | _ => st

/-- Every instruction runs alike whatever `st` is, and leaves there what `stAfter` says (R29). -/
theorem exec_setSt (i : Instr) (s : State) (v : Byte) :
    exec i (s.setSt v) = mapNext (·.setSt (stAfter i s v)) (exec i s) := by
  have hst := apartFromMemoryAndStack_setSt v
  cases i with
  | ret => exact outcomeOf_map_mapNext _ (hst.pop s) fun _ => rfl
  | call nnn => exact outcomeOf_map_mapNext _ (hst.push s s.pc) fun _ => rfl
  | ldBVx x => exact outcomeOf_map_mapNext _ (hst.memWriteBytes s _ _) fun _ => rfl
  | ldMemVx x => exact outcomeOf_map_mapNext _ (hst.memWriteBytes s _ _) fun _ => rfl
  | ldVxMem x => exact outcomeOf_map_mapNext id (congrFun Except.map_id _).symm fun _ => rfl
  | drw x y n => exact outcomeOf_map_mapNext id (congrFun Except.map_id _).symm fun _ => rfl
  | ldVxK x =>
    have hkey : (s.setSt v).lowestKey = s.lowestKey := rfl
    rw [exec_ldVxK, exec_ldVxK, hkey]
    cases s.lowestKey <;> rfl
  | _ => rfl

/-- What an instruction leaves in `st`: the state itself is the state with its own `st`. -/
theorem exec_next_st {i : Instr} {s t : State} (h : exec i s = .next t) : t.st = stAfter i s s.st := by
  have hs : exec i s = mapNext (·.setSt (stAfter i s s.st)) (exec i s) := exec_setSt i s s.st
  rw [h] at hs
  have ht : t = t.setSt (stAfter i s s.st) := Host.Outcome.next.inj hs
  rw [ht, State.setSt_st]

/-- Settles O59: `st` stays what it is, but for `FX18`, which writes it over. -/
theorem soundTimerIsNeverReadByInstructions : Obligations.SoundTimerIsNeverReadByInstructions := by
  unfold Obligations.SoundTimerIsNeverReadByInstructions
  intro i s v
  have hv : exec i { s with st := v } = mapNext (·.setSt (stAfter i s v)) (exec i s) := exec_setSt i s v
  rw [hv]
  cases h : exec i s with
  | next t =>
    refine ⟨rfl, ?_⟩
    have hst := exec_next_st h
    cases i with
    | ldStVx x => exact hst.symm
    | _ => exact ⟨rfl, hst⟩
  | fault f => rfl
  | refused q => exact exec_ne_refused i s q h

/-! ## A register that is not read -/

/-- With another value in the register, the instruction answers the very same, since it writes the register over, or the same but
for that value in the register, which it then keeps. -/
def AnswersAlike (i : Instr) (s : State) (r : Reg) (v : Byte) : Prop :=
  exec i (s.setReg r v) = exec i s ∨
    exec i (s.setReg r v) = mapNext (·.setReg r v) (exec i s) ∧ ∀ t, exec i s = .next t → t.reg r = s.reg r

variable {s : State} {r x : Reg} {v : Byte} {i : Instr}

theorem State.reg_setReg_of_ne (s : State) {x r : Reg} (v : Byte) (h : r ≠ x) : (s.setReg r v).reg x = s.reg x :=
  (s.reg_setReg r x v).trans (if_neg h.symm)

theorem State.setReg_setReg_same (s : State) (r : Reg) (v w : Byte) : (s.setReg r v).setReg r w = s.setReg r w := by
  simp only [State.setReg, Vector.set_set]

theorem State.setReg_comm (s : State) (v w : Byte) (h : r ≠ x) : (s.setReg r v).setReg x w = (s.setReg x w).setReg r v := by
  simp only [State.setReg]
  rw [Vector.set_comm]
  exact fun hv => h (Fin.ext hv)

theorem State.setReg_advance (s : State) (r : Reg) (v : Byte) (k : Word) :
    (s.setReg r v).advance k = (s.advance k).setReg r v := rfl

/-- Equal states, advanced, are equal answers. -/
theorem congr_next_advance {t u : State} (h : t = u) :
    (.next (t.advance 2) : Host.Outcome State Fault Refusal) = .next (u.advance 2) := by
  rw [h]

/-- An instruction that keeps the register. -/
theorem answersAlike_of_kept (hexec : exec i (s.setReg r v) = mapNext (·.setReg r v) (exec i s))
    (hw : mayWrite i s (.reg r) = false) : AnswersAlike i s r v :=
  .inr ⟨hexec, fun t ht => instructionsWriteOnlyTheirParts i s t (.reg r) ht (by simp) hw⟩

/-- An instruction that computes `f` from the state, without the register, and then writes it somewhere else. -/
theorem answersAlike_of_update {α : Type} {f : State → α} {g : State → α → State}
    (hexec : ∀ s, exec i s = .next (g s (f s))) (hf : f (s.setReg r v) = f s)
    (hg : ∀ a, g (s.setReg r v) a = (g s a).setReg r v) (hw : mayWrite i s (.reg r) = false) : AnswersAlike i s r v := by
  refine answersAlike_of_kept ?_ hw
  rw [hexec, hexec, hf, hg]
  rfl

/-- An instruction that writes register X, with the same byte whatever the register holds. -/
theorem answersAlike_of_setReg_value {w : Byte} (hexec : exec i s = .next ((s.setReg x w).advance 2))
    (hexec' : exec i (s.setReg r v) = .next (((s.setReg r v).setReg x w).advance 2)) : AnswersAlike i s r v := by
  unfold AnswersAlike
  rw [hexec, hexec']
  by_cases hr : r = x
  · subst hr
    exact .inl (by rw [s.setReg_setReg_same])
  · refine .inr ⟨by rw [s.setReg_comm v _ hr]; rfl, fun t ht => ?_⟩
    cases ht
    exact s.reg_setReg_advance_of_ne _ 2 hr

/-- An instruction that computes `f` from the state, without the register, and then writes it to register X. -/
theorem answersAlike_of_setReg {f : State → Byte} (hexec : ∀ s, exec i s = .next ((s.setReg x (f s)).advance 2))
    (hf : f (s.setReg r v) = f s) : AnswersAlike i s r v :=
  answersAlike_of_setReg_value (hexec s) (hf ▸ hexec (s.setReg r v))

/-- The random byte is not read from a register (R166). -/
theorem answersAlike_rnd (nn : Byte) : AnswersAlike (.rnd x nn) s r v := by
  by_cases hr : r = x
  · subst hr
    exact .inl (congr_next_advance (s.drawn.setReg_setReg_same r v _))
  · have hw : mayWrite (.rnd x nn) s (.reg r) = false := by simp [mayWrite, hr]
    exact answersAlike_of_kept (congr_next_advance (s.drawn.setReg_comm v _ hr)) hw

/-- The key wait leaves every register, or it writes the number of a key (R224). -/
theorem answersAlike_ldVxK : AnswersAlike (.ldVxK x) s r v := by
  have hexec := exec_ldVxK x s
  have hexec' : exec (.ldVxK x) (s.setReg r v) =
      .next (s.lowestKey.elim (s.setReg r v) fun k => ((s.setReg r v).setReg x (BitVec.ofNat 8 k.val)).advance 2) :=
    exec_ldVxK x (s.setReg r v)
  cases hkey : s.lowestKey with
  | none =>
    rw [hkey] at hexec hexec'
    refine .inr ⟨by rw [hexec, hexec']; rfl, fun t ht => ?_⟩
    cases hexec.symm.trans ht
    rfl
  | some k =>
    rw [hkey] at hexec hexec'
    exact answersAlike_of_setReg_value hexec hexec'

/-- An ALU instruction that computes its result and flag without the register. -/
theorem answersAlike_of_flag {f : State → Byte} {g : State → Bool}
    (hexec : ∀ s, exec i s = .next (s.writeResultAndFlag x (f s) (g s)))
    (hf : f (s.setReg r v) = f s) (hg : g (s.setReg r v) = g s) : AnswersAlike i s r v := by
  unfold AnswersAlike
  rw [hexec, hexec, hf, hg, State.writeResultAndFlag, State.writeResultAndFlag, State.setFlag_eq, State.setFlag_eq]
  by_cases hr : r = x
  · subst hr
    exact .inl (by rw [s.setReg_setReg_same])
  rw [s.setReg_comm v _ hr]
  by_cases h15 : r = 15
  · subst h15
    exact .inl (by rw [State.setReg_setReg_same])
  rw [State.setReg_comm _ v _ h15]
  refine .inr ⟨rfl, fun t ht => ?_⟩
  cases ht
  exact s.reg_writeResultAndFlag_other _ _ hr h15

/-! ### The stored registers, the loaded ones, and the sprite -/

theorem State.regsUpTo_setReg (s : State) (v : Byte) (h : ¬r ≤ x) : (s.setReg r v).regsUpTo x = s.regsUpTo x := by
  refine List.ext_getElem (by rw [State.regsUpTo_length, State.regsUpTo_length]) fun k hk hk' => ?_
  rw [State.regsUpTo_getElem, State.regsUpTo_getElem]
  rw [State.regsUpTo_length] at hk
  refine s.reg_setReg_of_ne v fun hr => h ?_
  rw [hr]
  exact Nat.le_of_lt_succ hk

/-- A load of registers that reaches the register writes it over (R187). -/
theorem State.setRegsFrom_setReg_of_lt (s : State) (v : Byte) {bytes : List Byte} (h : r.val < bytes.length) :
    (s.setReg r v).setRegsFrom bytes = s.setRegsFrom bytes := by
  have hbyte (q : Reg) : bytes.getD q.val ((s.setReg r v).reg q) = bytes.getD q.val (s.reg q) := by
    by_cases hq : q = r
    · subst hq
      rw [List.getD_eq_getElem _ _ h, List.getD_eq_getElem _ _ h]
    · rw [s.reg_setReg_of_ne v (Ne.symm hq)]
  simp only [State.setRegsFrom, hbyte]
  rfl

/-- A load of registers that does not reach the register keeps it (R187). -/
theorem State.setRegsFrom_setReg_of_le (s : State) (v : Byte) {bytes : List Byte} (h : bytes.length ≤ r.val) :
    (s.setReg r v).setRegsFrom bytes = (s.setRegsFrom bytes).setReg r v := by
  have hregs : ((s.setReg r v).setRegsFrom bytes).regs = ((s.setRegsFrom bytes).setReg r v).regs := by
    refine State.ext_regs fun q => ?_
    change ((s.setReg r v).setRegsFrom bytes).reg q = ((s.setRegsFrom bytes).setReg r v).reg q
    rw [State.reg_setRegsFrom, State.reg_setReg, State.reg_setReg, State.reg_setRegsFrom]
    by_cases hq : q = r
    · subst hq
      rw [List.getD_eq_default _ _ h, if_pos rfl, if_pos rfl]
    · rw [if_neg hq, if_neg hq]
  simpa only [State.setRegsFrom, State.setReg, State.mk.injEq, true_and, and_true] using hregs

/-- An instruction that loads registers, with the same bytes whatever the register holds. -/
theorem answersAlike_of_setRegsFrom {bytes : List Byte} (hexec : exec i s = .next ((s.setRegsFrom bytes).advance 2))
    (hexec' : exec i (s.setReg r v) = .next (((s.setReg r v).setRegsFrom bytes).advance 2)) : AnswersAlike i s r v := by
  unfold AnswersAlike
  rw [hexec, hexec']
  by_cases hr : r.val < bytes.length
  · exact .inl (congr_next_advance (s.setRegsFrom_setReg_of_lt v hr))
  · have hr := Nat.le_of_not_lt hr
    refine .inr ⟨?_, fun t ht => ?_⟩
    · rw [s.setRegsFrom_setReg_of_le v hr, State.setReg_advance]
      rfl
    cases ht
    rw [State.reg_advance, State.reg_setRegsFrom, List.getD_eq_default _ _ hr]

/-- `FX65` loads the same bytes, or fails alike: memory and `index` do not depend on the register (R187). -/
theorem answersAlike_ldVxMem : AnswersAlike (.ldVxMem x) s r v := by
  by_cases h : s.index.toNat + x.val ≤ 4095
  · exact answersAlike_of_setRegsFrom (exec_ldVxMem_of_le h) (exec_ldVxMem_of_le (s := s.setReg r v) h)
  · have h := Nat.lt_of_not_le h
    exact .inl ((exec_ldVxMem_of_lt (s := s.setReg r v) h).trans (exec_ldVxMem_of_lt h).symm)

/-- The sprite is drawn at the two coordinates and the flag written over `reg[15]` (R204, R208). -/
theorem State.drawSprite_setReg_15 (s : State) {y : Reg} (v : Byte) (rows : List Byte) (hx : 15 ≠ x) (hy : 15 ≠ y) :
    (s.setReg 15 v).drawSprite x y rows = s.drawSprite x y rows := by
  simp only [State.drawSprite, s.reg_setReg_of_ne v hx, s.reg_setReg_of_ne v hy, State.setFlag_eq, State.setReg_disp]
  exact congrArg (State.advance · 2) ((s.showDisplay _).setReg_setReg_same 15 v _)

theorem State.drawSprite_setReg_of_ne (s : State) {y : Reg} (v : Byte) (rows : List Byte) (hx : r ≠ x) (hy : r ≠ y)
    (h15 : r ≠ 15) : (s.setReg r v).drawSprite x y rows = (s.drawSprite x y rows).setReg r v := by
  simp only [State.drawSprite, s.reg_setReg_of_ne v hx, s.reg_setReg_of_ne v hy, State.setFlag_eq, State.setReg_disp]
  exact congrArg (State.advance · 2) ((s.showDisplay _).setReg_comm v _ h15)

/-- `DXYN` keeps the register, or it writes `reg[15]` over with the flag (R204). -/
theorem answersAlike_drw {y : Reg} (n : BitVec 4) (hx : r ≠ x) (hy : r ≠ y) : AnswersAlike (.drw x y n) s r v := by
  by_cases h15 : r = 15
  · subst h15
    refine .inl (congrArg outcomeOf (congrArg (Except.map · (s.memReadBytes s.indexAddr n.toNat)) (funext fun rows => ?_)))
    exact s.drawSprite_setReg_15 v rows hx hy
  · have hw : mayWrite (.drw x y n) s (.reg r) = false := by simp [mayWrite, Component.isPixel, h15]
    exact answersAlike_of_kept (outcomeOf_map_mapNext id (congrFun Except.map_id _).symm
      fun rows => s.drawSprite_setReg_of_ne v rows hx hy h15) hw

/-! ### Every instruction -/

/-- A skip whose condition does not read the register. -/
theorem answersAlike_of_skip {f : State → Bool} (hexec : ∀ s, exec i s = .next (s.skipIf (f s)))
    (hf : f (s.setReg r v) = f s) (hw : mayWrite i s (.reg r) = false) : AnswersAlike i s r v :=
  answersAlike_of_update (g := State.skipIf) hexec hf (fun _ => rfl) hw

/-- A new `index` that is computed without the register. -/
theorem answersAlike_of_setIndex {f : State → Word} (hexec : ∀ s, exec i s = .next ((s.setIndex (f s)).advance 2))
    (hf : f (s.setReg r v) = f s) (hw : mayWrite i s (.reg r) = false) : AnswersAlike i s r v :=
  answersAlike_of_update (g := fun s a => (s.setIndex a).advance 2) hexec hf (fun _ => rfl) hw

/-- No instruction depends on a register that it does not name (R22, R43). -/
theorem answersAlike_of_readsReg (h : readsReg i r = false) : AnswersAlike i s r v := by
  have hreg (q : Reg) (hq : (r == q) = false) : (s.setReg r v).reg q = s.reg q := s.reg_setReg_of_ne v (ne_of_beq_false hq)
  have hreg₂ (q q' : Reg) (hq : (r == q || r == q') = false) :
      (s.setReg r v).reg q = s.reg q ∧ (s.setReg r v).reg q' = s.reg q' :=
    (Bool.or_eq_false_iff.mp hq).imp (hreg q) (hreg q')
  have hapart := apartFromMemoryAndStack_setReg r v
  cases i with
  | cls | jp nnn => exact answersAlike_of_kept rfl rfl
  | ret => exact answersAlike_of_kept (outcomeOf_map_mapNext _ (hapart.pop s) fun _ => rfl) rfl
  | call nnn => exact answersAlike_of_kept (outcomeOf_map_mapNext _ (hapart.push s s.pc) fun _ => rfl) rfl
  | jpV0 nnn =>
    exact answersAlike_of_update (g := State.setPc) (exec_jpV0 nnn) (by simp only [State.jumpV0Target, hreg 0 h])
      (fun _ => rfl) rfl
  | seImm x nn => exact answersAlike_of_skip (exec_seImm x nn) (by rw [hreg x h]) rfl
  | sneImm x nn => exact answersAlike_of_skip (exec_sneImm x nn) (by rw [hreg x h]) rfl
  | seReg x y =>
    obtain ⟨hx, hy⟩ := hreg₂ x y h
    exact answersAlike_of_skip (exec_seReg x y) (by rw [hx, hy]) rfl
  | sneReg x y =>
    obtain ⟨hx, hy⟩ := hreg₂ x y h
    exact answersAlike_of_skip (exec_sneReg x y) (by rw [hx, hy]) rfl
  | skp x => exact answersAlike_of_skip (exec_skp x) (by simp only [State.keyOperand, hreg x h]; rfl) rfl
  | sknp x => exact answersAlike_of_skip (exec_sknp x) (by simp only [State.keyOperand, hreg x h]; rfl) rfl
  | ldImm x nn => exact answersAlike_of_setReg (exec_ldImm x nn) rfl
  | addImm x nn => exact answersAlike_of_setReg (exec_addImm x nn) (by rw [hreg x h])
  | ldReg x y => exact answersAlike_of_setReg (exec_ldReg x y) (by rw [hreg y h])
  | orReg x y =>
    obtain ⟨hx, hy⟩ := hreg₂ x y h
    exact answersAlike_of_setReg (exec_orReg x y) (by rw [hx, hy])
  | andReg x y =>
    obtain ⟨hx, hy⟩ := hreg₂ x y h
    exact answersAlike_of_setReg (exec_andReg x y) (by rw [hx, hy])
  | xorReg x y =>
    obtain ⟨hx, hy⟩ := hreg₂ x y h
    exact answersAlike_of_setReg (exec_xorReg x y) (by rw [hx, hy])
  | ldVxDt x => exact answersAlike_of_setReg (exec_ldVxDt x) rfl
  | addReg x y =>
    obtain ⟨hx, hy⟩ := hreg₂ x y h
    exact answersAlike_of_flag (exec_addReg x y) (by rw [hx, hy]) (by rw [hx, hy])
  | sub x y =>
    obtain ⟨hx, hy⟩ := hreg₂ x y h
    exact answersAlike_of_flag (exec_sub x y) (by rw [hx, hy]) (by rw [hx, hy])
  | subn x y =>
    obtain ⟨hx, hy⟩ := hreg₂ x y h
    exact answersAlike_of_flag (exec_subn x y) (by rw [hx, hy]) (by rw [hx, hy])
  | shr x y => exact answersAlike_of_flag (exec_shr x y) (by rw [hreg x h]) (by rw [hreg x h])
  | shl x y => exact answersAlike_of_flag (exec_shl x y) (by rw [hreg x h]) (by rw [hreg x h])
  | ldI nnn => exact answersAlike_of_setIndex (exec_ldI nnn) rfl rfl
  | addIVx x => exact answersAlike_of_setIndex (exec_addIVx x) (by simp only [State.indexPlus, hreg x h]; rfl) rfl
  | ldFVx x => exact answersAlike_of_setIndex (exec_ldFVx x) (by simp only [State.glyphAddr, hreg x h]) rfl
  | ldDtVx x =>
    exact answersAlike_of_update (f := (·.reg x)) (g := fun s a => (s.setDt a).advance 2) (exec_ldDtVx x) (hreg x h)
      (fun _ => rfl) rfl
  | ldStVx x =>
    exact answersAlike_of_update (f := (·.reg x)) (g := fun s a => (s.setSt a).advance 2) (exec_ldStVx x) (hreg x h)
      (fun _ => rfl) rfl
  | rnd x nn => exact answersAlike_rnd nn
  | ldVxK x => exact answersAlike_ldVxK
  | drw x y n =>
    obtain ⟨hx, hy⟩ := Bool.or_eq_false_iff.mp h
    exact answersAlike_drw n (ne_of_beq_false hx) (ne_of_beq_false hy)
  | ldBVx x =>
    exact answersAlike_of_kept (outcomeOf_map_mapNext _ (by rw [hreg x h]; exact hapart.memWriteBytes s _ _) fun _ => rfl) rfl
  | ldMemVx x =>
    have hstored := s.regsUpTo_setReg v (of_decide_eq_false h)
    exact answersAlike_of_kept (outcomeOf_map_mapNext _ (by rw [hstored]; exact hapart.memWriteBytes s _ _) fun _ => rfl) rfl
  | ldVxMem x => exact answersAlike_ldVxMem

/-- Settles O58. -/
theorem instructionsDependOnlyOnTheRegistersTheyRead : Obligations.InstructionsDependOnlyOnTheRegistersTheyRead := by
  unfold Obligations.InstructionsDependOnlyOnTheRegistersTheyRead
  intro i s r v hread
  rcases answersAlike_of_readsReg (s := s) (v := v) hread with hsame | ⟨hkept, hreg⟩
  · rw [hsame]
    cases h : exec i s with
    | next t => exact ⟨rfl, fun q _ => rfl, .inl rfl⟩
    | fault f => rfl
    | refused q => exact exec_ne_refused i s q h
  · rw [hkept]
    cases h : exec i s with
    | next t =>
      refine ⟨rfl, fun q hq => t.reg_setReg_of_ne v (Ne.symm hq), .inr ⟨?_, hreg t h⟩⟩
      exact (t.reg_setReg r r v).trans (if_pos rfl)
    | fault f => rfl
    | refused q => exact exec_ne_refused i s q h

end Sys2Proof.Machine
end
